-- ==== Sys2Proof/Word.lean ====
section
/-! DEFINITION. The word types of the ITX engine: one name per width the spec uses (00_scope.md R6, R7). -/

namespace Sys2Proof

/-- A control register or a command word: 32 bits (10_state.md R27, 30_encoding.md R70). -/
abbrev Word := BitVec 32

/-- An `s8` pattern: one basis ROM entry (10_state.md R21). -/
abbrev S8 := BitVec 8

/-- An `s16` pattern: one element of CBUF or RBUF (10_state.md R24, R26). -/
abbrev S16 := BitVec 16

/-- An `s32` pattern: one element of TBUF (10_state.md R25). -/
abbrev S32 := BitVec 32

/-- A host buffer index, a 12-bit quantity, so an out-of-range index cannot be expressed (10_state.md R32). -/
abbrev BufIndex := BitVec 12

/-- The SHIFT field of a command (30_encoding.md R73). -/
abbrev Shift := BitVec 5

/-- The LINE field of a command (30_encoding.md R74). -/
abbrev Line := BitVec 7

end Sys2Proof
end

