-- ==== Sys2Proof/Syntax.lean ====
section
/-! DEFINITION. The 18 commands of the engine, one constructor per row of the opcode table (30_encoding.md R76),
each with its two operand fields SHIFT and LINE, and the accessors that name a command's fields. -/

namespace Sys2Proof

/-- A command. `ITXV.n` carries SHIFT too: the field is ignored, but every value of it is a different word (R73). -/
inductive Instr where
  /-- `ITXV.2` (41_pass_ops.md R120). -/
  | itxv2 (shift : Shift) (line : Line)
  /-- `ITXV.4` (41_pass_ops.md R121). -/
  | itxv4 (shift : Shift) (line : Line)
  /-- `ITXV.8` (41_pass_ops.md R122). -/
  | itxv8 (shift : Shift) (line : Line)
  /-- `ITXV.16` (41_pass_ops.md R123). -/
  | itxv16 (shift : Shift) (line : Line)
  /-- `ITXV.32` (41_pass_ops.md R124). -/
  | itxv32 (shift : Shift) (line : Line)
  /-- `ITXV.64` (41_pass_ops.md R125). -/
  | itxv64 (shift : Shift) (line : Line)
  /-- `ITXH.2` (41_pass_ops.md R126). -/
  | itxh2 (shift : Shift) (line : Line)
  /-- `ITXH.4` (41_pass_ops.md R127). -/
  | itxh4 (shift : Shift) (line : Line)
  /-- `ITXH.8` (41_pass_ops.md R128). -/
  | itxh8 (shift : Shift) (line : Line)
  /-- `ITXH.16` (41_pass_ops.md R129). -/
  | itxh16 (shift : Shift) (line : Line)
  /-- `ITXH.32` (41_pass_ops.md R130). -/
  | itxh32 (shift : Shift) (line : Line)
  /-- `ITXH.64` (41_pass_ops.md R131). -/
  | itxh64 (shift : Shift) (line : Line)
  /-- `ITX.2` (42_itx2d_ops.md R145). -/
  | itx2 (shift : Shift) (line : Line)
  /-- `ITX.4` (42_itx2d_ops.md R146). -/
  | itx4 (shift : Shift) (line : Line)
  /-- `ITX.8` (42_itx2d_ops.md R147). -/
  | itx8 (shift : Shift) (line : Line)
  /-- `ITX.16` (42_itx2d_ops.md R148). -/
  | itx16 (shift : Shift) (line : Line)
  /-- `ITX.32` (42_itx2d_ops.md R149). -/
  | itx32 (shift : Shift) (line : Line)
  /-- `ITX.64` (42_itx2d_ops.md R150). -/
  | itx64 (shift : Shift) (line : Line)
deriving DecidableEq, Repr

namespace Instr

/-- LOG2N, the index of the dispatch table (30_encoding.md R71). -/
def log2n : Instr → Nat
  | .itxv2 _ _ => 1
  | .itxv4 _ _ => 2
  | .itxv8 _ _ => 3
  | .itxv16 _ _ => 4
  | .itxv32 _ _ => 5
  | .itxv64 _ _ => 6
  | .itxh2 _ _ => 1
  | .itxh4 _ _ => 2
  | .itxh8 _ _ => 3
  | .itxh16 _ _ => 4
  | .itxh32 _ _ => 5
  | .itxh64 _ _ => 6
  | .itx2 _ _ => 1
  | .itx4 _ _ => 2
  | .itx8 _ _ => 3
  | .itx16 _ _ => 4
  | .itx32 _ _ => 5
  | .itx64 _ _ => 6

/-- The transform size N = 2^LOG2N (30_encoding.md R77). -/
def size : Instr → Nat
  | .itxv2 _ _ => 2
  | .itxv4 _ _ => 4
  | .itxv8 _ _ => 8
  | .itxv16 _ _ => 16
  | .itxv32 _ _ => 32
  | .itxv64 _ _ => 64
  | .itxh2 _ _ => 2
  | .itxh4 _ _ => 4
  | .itxh8 _ _ => 8
  | .itxh16 _ _ => 16
  | .itxh32 _ _ => 32
  | .itxh64 _ _ => 64
  | .itx2 _ _ => 2
  | .itx4 _ _ => 4
  | .itx8 _ _ => 8
  | .itx16 _ _ => 16
  | .itx32 _ _ => 32
  | .itx64 _ _ => 64

/-- PV: the command performs the vertical step (30_encoding.md R72). -/
def vertical : Instr → Bool
  | .itxv2 _ _ => true
  | .itxv4 _ _ => true
  | .itxv8 _ _ => true
  | .itxv16 _ _ => true
  | .itxv32 _ _ => true
  | .itxv64 _ _ => true
  | .itxh2 _ _ => false
  | .itxh4 _ _ => false
  | .itxh8 _ _ => false
  | .itxh16 _ _ => false
  | .itxh32 _ _ => false
  | .itxh64 _ _ => false
  | .itx2 _ _ => true
  | .itx4 _ _ => true
  | .itx8 _ _ => true
  | .itx16 _ _ => true
  | .itx32 _ _ => true
  | .itx64 _ _ => true

/-- PH: the command performs the horizontal step (30_encoding.md R72). -/
def horizontal : Instr → Bool
  | .itxv2 _ _ => false
  | .itxv4 _ _ => false
  | .itxv8 _ _ => false
  | .itxv16 _ _ => false
  | .itxv32 _ _ => false
  | .itxv64 _ _ => false
  | .itxh2 _ _ => true
  | .itxh4 _ _ => true
  | .itxh8 _ _ => true
  | .itxh16 _ _ => true
  | .itxh32 _ _ => true
  | .itxh64 _ _ => true
  | .itx2 _ _ => true
  | .itx4 _ _ => true
  | .itx8 _ _ => true
  | .itx16 _ _ => true
  | .itx32 _ _ => true
  | .itx64 _ _ => true

/-- The SHIFT field. -/
def shift : Instr → Shift
  | .itxv2 shift _ => shift
  | .itxv4 shift _ => shift
  | .itxv8 shift _ => shift
  | .itxv16 shift _ => shift
  | .itxv32 shift _ => shift
  | .itxv64 shift _ => shift
  | .itxh2 shift _ => shift
  | .itxh4 shift _ => shift
  | .itxh8 shift _ => shift
  | .itxh16 shift _ => shift
  | .itxh32 shift _ => shift
  | .itxh64 shift _ => shift
  | .itx2 shift _ => shift
  | .itx4 shift _ => shift
  | .itx8 shift _ => shift
  | .itx16 shift _ => shift
  | .itx32 shift _ => shift
  | .itx64 shift _ => shift

/-- The LINE field. -/
def line : Instr → Line
  | .itxv2 _ line => line
  | .itxv4 _ line => line
  | .itxv8 _ line => line
  | .itxv16 _ line => line
  | .itxv32 _ line => line
  | .itxv64 _ line => line
  | .itxh2 _ line => line
  | .itxh4 _ line => line
  | .itxh8 _ line => line
  | .itxh16 _ line => line
  | .itxh32 _ line => line
  | .itxh64 _ line => line
  | .itx2 _ line => line
  | .itx4 _ line => line
  | .itx8 _ line => line
  | .itx16 _ line => line
  | .itx32 _ line => line
  | .itx64 _ line => line

end Instr

end Sys2Proof
end

