-- ==== Sys2Proof/Decode.lean ====
section
/-! DEFINITION. From a command word to a command and back (30_encoding.md R70, R76, R83). Decoding is total on every
32-bit word and rejects by name. After it, the encoder, written from the opcode map's rows. -/

namespace Sys2Proof

/-- Why a word is no command (30_encoding.md R83). -/
inductive DecodeError where
  /-- A reserved bit is set, or PV = PH = 0. -/
  | illegalCmd
  /-- LOG2N is 0 or 7. -/
  | badSize
deriving DecidableEq, Repr

/-- `LOG2N`, bits 2:0 (30_encoding.md R70). -/
def log2nField (w : Word) : BitVec 3 := w.extractLsb' 0 3

/-- `PV`, bit 3. -/
def pvField (w : Word) : Bool := w.getLsbD 3

/-- `PH`, bit 4. -/
def phField (w : Word) : Bool := w.getLsbD 4

/-- `SHIFT`, bits 12:8. -/
def shiftField (w : Word) : Shift := w.extractLsb' 8 5

/-- `LINE`, bits 22:16. -/
def lineField (w : Word) : Line := w.extractLsb' 16 7

/-- The reserved bits 7:5, 15:13 and 31:23 are all 0 (30_encoding.md R75). -/
def reservedClear (w : Word) : Bool :=
  w.extractLsb' 5 3 == 0#3 && w.extractLsb' 13 3 == 0#3 && w.extractLsb' 23 9 == 0#9

/-- The command of PV = 1, PH = 0 and this LOG2N (30_encoding.md R76); 0 and 7 select none (R71). -/
def selectVertical (log2n : BitVec 3) (shift : Shift) (line : Line) : Except DecodeError Instr :=
  match log2n.toNat with
  | 1 => .ok (.itxv2 shift line)
  | 2 => .ok (.itxv4 shift line)
  | 3 => .ok (.itxv8 shift line)
  | 4 => .ok (.itxv16 shift line)
  | 5 => .ok (.itxv32 shift line)
  | 6 => .ok (.itxv64 shift line)
  | _ => .error .badSize

/-- The command of PV = 0, PH = 1 and this LOG2N (30_encoding.md R76); 0 and 7 select none (R71). -/
def selectHorizontal (log2n : BitVec 3) (shift : Shift) (line : Line) : Except DecodeError Instr :=
  match log2n.toNat with
  | 1 => .ok (.itxh2 shift line)
  | 2 => .ok (.itxh4 shift line)
  | 3 => .ok (.itxh8 shift line)
  | 4 => .ok (.itxh16 shift line)
  | 5 => .ok (.itxh32 shift line)
  | 6 => .ok (.itxh64 shift line)
  | _ => .error .badSize

/-- The command of PV = PH = 1 and this LOG2N (30_encoding.md R76); 0 and 7 select none (R71). -/
def selectTwoD (log2n : BitVec 3) (shift : Shift) (line : Line) : Except DecodeError Instr :=
  match log2n.toNat with
  | 1 => .ok (.itx2 shift line)
  | 2 => .ok (.itx4 shift line)
  | 3 => .ok (.itx8 shift line)
  | 4 => .ok (.itx16 shift line)
  | 5 => .ok (.itx32 shift line)
  | 6 => .ok (.itx64 shift line)
  | _ => .error .badSize

/-- The decode procedure, in the order of its tests (30_encoding.md R83). -/
def decode (w : Word) : Except DecodeError Instr :=
  if reservedClear w then
    match phField w, pvField w with
    | false, false => .error .illegalCmd
    | false, true => selectVertical (log2nField w) (shiftField w) (lineField w)
    | true, false => selectHorizontal (log2nField w) (shiftField w) (lineField w)
    | true, true => selectTwoD (log2nField w) (shiftField w) (lineField w)
  else .error .illegalCmd

/-- The `match` column of the opcode map (30_encoding.md R76). -/
def rowMatch : Instr → Word
  | .itxv2 _ _ => 0x00000009#32
  | .itxv4 _ _ => 0x0000000A#32
  | .itxv8 _ _ => 0x0000000B#32
  | .itxv16 _ _ => 0x0000000C#32
  | .itxv32 _ _ => 0x0000000D#32
  | .itxv64 _ _ => 0x0000000E#32
  | .itxh2 _ _ => 0x00000011#32
  | .itxh4 _ _ => 0x00000012#32
  | .itxh8 _ _ => 0x00000013#32
  | .itxh16 _ _ => 0x00000014#32
  | .itxh32 _ _ => 0x00000015#32
  | .itxh64 _ _ => 0x00000016#32
  | .itx2 _ _ => 0x00000019#32
  | .itx4 _ _ => 0x0000001A#32
  | .itx8 _ _ => 0x0000001B#32
  | .itx16 _ _ => 0x0000001C#32
  | .itx32 _ _ => 0x0000001D#32
  | .itx64 _ _ => 0x0000001E#32

/-- The mask of every row: all reserved bits, PH, PV and LOG2N (30_encoding.md R76). -/
def rowMask : Word := 0xFF80E0FF#32

/-- Bits 7:0 of a row's match: three reserved zeros, PH, PV, LOG2N. -/
def lowByte (ph pv : Bool) (log2n : BitVec 3) : BitVec 8 :=
  0#3 ++ BitVec.ofBool ph ++ BitVec.ofBool pv ++ log2n

/-- The format `CMD32`: the fields at their places, zeros in the reserved bits (30_encoding.md R70). -/
def encodeFields (ph pv : Bool) (log2n : BitVec 3) (shift : Shift) (line : Line) : Word :=
  0#9 ++ line ++ 0#3 ++ shift ++ lowByte ph pv log2n

/-- The word of a command. -/
def encode : Instr → Word
  | .itxv2 shift line => encodeFields false true 1#3 shift line
  | .itxv4 shift line => encodeFields false true 2#3 shift line
  | .itxv8 shift line => encodeFields false true 3#3 shift line
  | .itxv16 shift line => encodeFields false true 4#3 shift line
  | .itxv32 shift line => encodeFields false true 5#3 shift line
  | .itxv64 shift line => encodeFields false true 6#3 shift line
  | .itxh2 shift line => encodeFields true false 1#3 shift line
  | .itxh4 shift line => encodeFields true false 2#3 shift line
  | .itxh8 shift line => encodeFields true false 3#3 shift line
  | .itxh16 shift line => encodeFields true false 4#3 shift line
  | .itxh32 shift line => encodeFields true false 5#3 shift line
  | .itxh64 shift line => encodeFields true false 6#3 shift line
  | .itx2 shift line => encodeFields true true 1#3 shift line
  | .itx4 shift line => encodeFields true true 2#3 shift line
  | .itx8 shift line => encodeFields true true 3#3 shift line
  | .itx16 shift line => encodeFields true true 4#3 shift line
  | .itx32 shift line => encodeFields true true 5#3 shift line
  | .itx64 shift line => encodeFields true true 6#3 shift line

/-- The command the decoder reads from an opcode-table word of `nbits` bits, bits above `nbits` being 0.
A command is one 32-bit word (30_encoding.md R80): a longer number is no command (log entry 16). -/
def decodeTableWord (nbits w : Nat) : Option Instr :=
  if w % 2 ^ nbits < 2 ^ 32 then
    match decode (BitVec.ofNat 32 (w % 2 ^ nbits)) with
    | .ok i => some i
    | .error _ => none
  else none

end Sys2Proof
end

