-- ==== Sys2Proof/Config.lean ====
section
/-! DEFINITION. What is fixed before reset and never changed by any operation (00_scope.md R5, 10_state.md R41):
the basis ROM's shape and its open contents, the fixed parameters, and the free values of unwritten buffer elements. -/

namespace Sys2Proof

/-- One basis table: `n` rows of `n` entries, each an `s8` pattern (10_state.md R21).
The shape and the entry range -128..127 hold by the type, so a table that breaks either cannot be given. -/
abbrev Table (n : Nat) := Vector (Vector S8 n) n

/-- The basis ROM: five tables, 5456 entries; there is no table for N = 2 (10_state.md R21, 20_memory.md R50). -/
structure Rom where
  tm4 : Table 4
  tm8 : Table 8
  tm16 : Table 16
  tm32 : Table 32
  tm64 : Table 64
deriving DecidableEq, Repr

/-- The datapath organisations of the source (10_state.md R34, 92_eei_decisions.md D24). -/
inductive Variant where
  | scalar
  | sse
  | avx2
  | neon
deriving DecidableEq, Repr, Inhabited

/-- The three readings of where the horizontal 32-bit clamp sits (40_kernel.md R102). -/
inductive HClamp where
  | none
  | afterAccumulation
  | afterAdd
deriving DecidableEq, Repr

namespace Config

/-- OPEN parameter `TM4` (10_state.md R22): no value can be proved of it. -/
opaque tm4 : Table 4

/-- OPEN parameter `TM8` (10_state.md R22). -/
opaque tm8 : Table 8

/-- OPEN parameter `TM16` (10_state.md R22). -/
opaque tm16 : Table 16

/-- OPEN parameter `TM32` (10_state.md R22). -/
opaque tm32 : Table 32

/-- OPEN parameter `TM64` (10_state.md R22). -/
opaque tm64 : Table 64

/-- The configured ROM contents. -/
def rom : Rom := { tm4 := tm4, tm8 := tm8, tm16 := tm16, tm32 := tm32, tm64 := tm64 }

/-- OPEN parameter `VARIANT`, sampled at reset, without any architectural effect (10_state.md R34; DESIGN CHOICE, safe:
log entry 11). -/
opaque variant : Variant

/-- `BUF_DEPTH`: elements per buffer, 64 * 64 (00_scope.md R5). -/
def bufDepth : Nat := 4096

/-- `MIN_TX_VAL_32` (00_scope.md R5). -/
def minTxVal32 : Int := -2147483648

/-- `MAX_TX_VAL_32` (00_scope.md R5). -/
def maxTxVal32 : Int := 2147483647

/-- `INT16_MIN` (00_scope.md R5). -/
def int16Min : Int := -32768

/-- `INT16_MAX` (00_scope.md R5). -/
def int16Max : Int := 32767

/-- `G2`, the gain of the N = 2 operation, fixed to 1 (40_kernel.md R98, decision D12; log entry 7). -/
def g2 : Int := 1

/-- `HCLAMP`, fixed to `after_accumulation` (40_kernel.md R101, decision D13; log entry 8). -/
def hclamp : HClamp := .afterAccumulation

/-- FREE VALUE: what element `i` of CBUF holds when nothing has written it since reset number `draw`
(10_state.md R39, 93_implementation_defined.md U6). No body: nothing can be proved of a value. DESIGN CHOICE: log entry 2. -/
opaque freeCbuf (draw i : Nat) : S16

/-- FREE VALUE: the same for TBUF. DESIGN CHOICE: log entry 2. -/
opaque freeTbuf (draw i : Nat) : S32

/-- FREE VALUE: the same for RBUF. DESIGN CHOICE: log entry 2. -/
opaque freeRbuf (draw i : Nat) : S16

end Config

end Sys2Proof
end

