-- ==== Sys2Proof/Machine/State.lean ====
section
/-! DEFINITION. Everything the spec gives the machine, as plain data: the four control registers, the three buffers,
the basis ROM, the sampled variant; and beside it the host's side of the interface: the operations the host has still to
issue, its position among them, and the value its last operation returned. -/

namespace Sys2Proof.Machine

/-- A buffer: cells (element index, pattern), indices strictly rising, a cell for every element written since reset.
An element without a cell holds a free value (Config.freeCbuf and its like). DESIGN CHOICE, safe: log entry 3. -/
abbrev Memory (w : Nat) := List (Nat × BitVec w)

/-- The control registers, numbered 0 to 3 (10_state.md R27). No other number exists. -/
inductive Reg where
  | cmd
  | status
  | omin
  | omax
deriving DecidableEq, Repr

/-- The buffers (10_state.md R24 to R26). -/
inductive BufName where
  | cbuf
  | tbuf
  | rbuf
deriving DecidableEq, Repr

/-- The host operations (10_state.md R32); a buffer write is one constructor per buffer, because the datum is as wide as
the buffer's element (43_host_ops.md R155). -/
inductive HostOp where
  /-- `HostWriteReg(r, w)`; on CMD it issues the command `w`. -/
  | writeReg (r : Reg) (w : Word)
  /-- `HostReadReg(r)`. -/
  | readReg (r : Reg)
  /-- `HostWriteBuf(CBUF, i, v)`. -/
  | writeCbuf (i : BufIndex) (v : S16)
  /-- `HostWriteBuf(TBUF, i, v)`. -/
  | writeTbuf (i : BufIndex) (v : S32)
  /-- `HostWriteBuf(RBUF, i, v)`. -/
  | writeRbuf (i : BufIndex) (v : S16)
  /-- `HostReadBuf(B, i)`. -/
  | readBuf (b : BufName) (i : BufIndex)
  /-- `Reset`. -/
  | reset
deriving DecidableEq, Repr

/-- What a host read returns: a 32-bit register, or an element as a signed integer (10_state.md R32). -/
inductive HostReply where
  | register (w : Word)
  | element (v : Int)
deriving DecidableEq, Repr

/-- The four causes of a hardware fault (60_exceptions.md R160). Raising one is a NEXT state, the FAULT state of R163;
it is not an outcome `fault` of a step (log entry 10). -/
inductive FaultCause where
  | illegalCmd
  | badSize
  | badLine
  | badRange
deriving DecidableEq, Repr

/-- The machine. -/
structure State where
  /-- CMD, register 0 (10_state.md R28). -/
  cmd : Word
  /-- STATUS, register 1, read through the field accessors of Machine/Flags.lean (10_state.md R31). Log entry 18. -/
  status : Word
  /-- OMIN, register 2 (10_state.md R29). -/
  omin : Word
  /-- OMAX, register 3 (10_state.md R30). -/
  omax : Word
  /-- CBUF, 4096 elements `s16` (10_state.md R24). -/
  cbuf : Memory 16
  /-- TBUF, 4096 elements `s32` (10_state.md R25). -/
  tbuf : Memory 32
  /-- RBUF, 4096 elements `s16` (10_state.md R26). -/
  rbuf : Memory 16
  /-- The basis ROM's contents, changed by nothing (10_state.md R21, R41). DESIGN CHOICE, safe: log entry 4. -/
  rom : Rom
  /-- VARIANT as sampled at the last reset (10_state.md R34). Log entry 11. -/
  variant : Variant
  /-- THE MODEL'S OWN: the number of the reset whose draw the unwritten elements hold (10_state.md R39). DESIGN CHOICE, unsafe: log entry 2. -/
  draw : Nat
  /-- The host's operations still to come, the next one first (10_state.md R37). DESIGN CHOICE, safe: log entry 1. -/
  ops : List HostOp
  /-- The command index `ci`: how many host operations have been issued, Reset among them (10_state.md R37). Log entry 17. -/
  ci : Nat
  /-- What the last host operation returned to the host, if it was a read (43_host_ops.md R156, R158). DESIGN CHOICE, safe: log entry 5. -/
  reply : Option HostReply
deriving DecidableEq, Repr

/-- Reasons a step stops with a fault: none. Every violation the command interface can express has its entry described
(60_exceptions.md R163) and is taken as a next state, and every host operation always completes (43_host_ops.md section 1). -/
inductive Fault : Type
deriving DecidableEq, Repr

/-- Reasons a step is refused. -/
inductive Refusal where
  /-- Raised by an arm of `exec` whose command has no meaning yet (safe: the model stops). No arm raises it now. -/
  | notModelled (mnemonic : String)
deriving DecidableEq, Repr

/-- The machine right after reset (10_state.md R39): the register values are the spec's; no buffer element is written, so
each holds its free value; the ROM and the variant are the configured ones. `draw`, `ops`, `ci`, `reply` are not the
engine's: first draw, no host operation issued or waiting, nothing returned (log entries 1, 2, 5). -/
def State.reset : State where
  cmd := 0x00000000#32
  status := 0x00000000#32
  omin := 0xFFFF8000#32
  omax := 0x00007FFF#32
  cbuf := []
  tbuf := []
  rbuf := []
  rom := Config.rom
  variant := Config.variant
  draw := 0
  ops := []
  ci := 0
  reply := none

end Sys2Proof.Machine
end

