-- ==== Sys2Proof/Machine/Flags.lean ====
section
/-! DEFINITION. The fields of STATUS and the two ways a command writes them (10_state.md R31, 60_exceptions.md R160, R163).
The engine has no condition codes (10_state.md R38): these are all the flags there are. -/

namespace Sys2Proof.Machine

/-- `DONE`, bit 0. -/
def statusDone (w : Word) : Bool := w.getLsbD 0

/-- `FAULT`, bit 1. -/
def statusFault (w : Word) : Bool := w.getLsbD 1

/-- `CAUSE`, bits 7:4. -/
def statusCause (w : Word) : BitVec 4 := w.extractLsb' 4 4

/-- The code of a cause (60_exceptions.md R160). -/
def FaultCause.code : FaultCause → BitVec 4
  | .illegalCmd => 1
  | .badSize => 2
  | .badLine => 3
  | .badRange => 4

/-- `DONE <- 1`, the other bits kept (41_pass_ops.md R134). -/
def withDone (w : Word) : Word := w ||| 0x00000001#32

/-- `CAUSE <- c`, the other bits kept. -/
def withCause (c : BitVec 4) (w : Word) : Word := (w &&& 0xFFFFFF0F#32) ||| (c.setWidth 32 <<< 4)

/-- STATUS at fault entry: FAULT set, CAUSE written only if FAULT was 0, DONE cleared (60_exceptions.md R163). -/
def withFault (c : FaultCause) (w : Word) : Word :=
  ((if statusFault w then w else withCause c.code w) ||| 0x00000002#32) &&& 0xFFFFFFFE#32

/-- The machine is in the FAULT state (60_exceptions.md R165). -/
def State.faulted (s : State) : Bool := statusFault s.status

end Sys2Proof.Machine
end

