-- ==== Sys2Proof/Machine/Numeric.lean ====
section
/-! DEFINITION. The integer functions every rule uses (00_scope.md R8). All values are unbounded integers (R6); a value is
narrowed only after a clamp has put it in the range of the pattern that stores it (40_kernel.md R104). -/

namespace Sys2Proof.Machine

/-- `clamp(v, lo, hi)`, for `lo ≤ hi`. -/
def clamp (v lo hi : Int) : Int := if v < lo then lo else if hi < v then hi else v

/-- `clamp32(v)`: the clamp to `[MIN_TX_VAL_32, MAX_TX_VAL_32]`. -/
def clamp32 (v : Int) : Int := clamp v Config.minTxVal32 Config.maxTxVal32

/-- `sat16(v)`: the saturating narrow to `[INT16_MIN, INT16_MAX]`. -/
def sat16 (v : Int) : Int := clamp v Config.int16Min Config.int16Max

/-- `asr(v, s) = floor(v / 2^s)`; the divisor is positive, so `/` on the integers is the floor. -/
def asr (v : Int) (s : Nat) : Int := v / 2 ^ s

/-- `add_of(s)`: the rounding offset. -/
def addOf (s : Nat) : Int := if s = 0 then 0 else 2 ^ (s - 1)

/-- The sum of `f j` for `j` from 0 to `n - 1`. -/
def sumBelow : Nat → (Nat → Int) → Int
  | 0, _ => 0
  | n + 1, f => sumBelow n f + f n

/-- `TM(N)[j][k]` of one table, sign extended (10_state.md R21); every kernel reads inside the table. -/
def tableEntry {n : Nat} (t : Table n) (j k : Nat) : Int :=
  if h : j < n ∧ k < n then ((t[j]'h.1)[k]'h.2).toInt else 0

/-- `TM(n)` of the ROM, for the five sizes that have a table (10_state.md R21). -/
def romEntry (r : Rom) (n : Nat) : Nat → Nat → Int :=
  match n with
  | 4 => tableEntry r.tm4
  | 8 => tableEntry r.tm8
  | 16 => tableEntry r.tm16
  | 32 => tableEntry r.tm32
  | 64 => tableEntry r.tm64
  | _ => fun _ _ => 0

end Sys2Proof.Machine
end

