-- ==== Sys2Proof/Machine/Kernel.lean ====
section
/-! DEFINITION. The 1-D kernel: the matrix product that is its meaning, the partial butterfly it is computed by, the
N = 2 base case, and the two output stages (40_kernel.md). A vector is a function of its index. -/

namespace Sys2Proof.Machine

/-- `KERNEL(N, x)[k]`, the direct definition (40_kernel.md R91); `B[j][k]` is `b j k`. -/
def kernel (b : Nat → Nat → Int) (n : Nat) (x : Nat → Int) (k : Nat) : Int :=
  sumBelow n fun j => b j k * x j

/-- The odd half `o[k]` of a level with `2 * h` terms and stride `s` (40_kernel.md R93). -/
def oddHalf (b : Nat → Nat → Int) (x : Nat → Int) (h s k : Nat) : Int :=
  sumBelow h fun t => b ((2 * t + 1) * s) k * x ((2 * t + 1) * s)

/-- `PB(n, s)[k]` for `n = 2 ^ m` (40_kernel.md R93): recursive in the number of halvings, as R96 recommends. -/
def butterfly (b : Nat → Nat → Int) (x : Nat → Int) : Nat → Nat → Nat → Int
  | 0, _, _ => b 0 0 * x 0
  | m + 1, s, k =>
    if k < 2 ^ m then butterfly b x m (2 * s) k + oddHalf b x (2 ^ m) s k
    else butterfly b x m (2 * s) (2 ^ (m + 1) - 1 - k) - oddHalf b x (2 ^ m) s (2 ^ (m + 1) - 1 - k)

/-- `KERNEL_PB(N, x)[k] = PB(N, 1)[k]` for `N = 2 ^ m` (40_kernel.md R93). -/
def kernelPB (b : Nat → Nat → Int) (m : Nat) (x : Nat → Int) (k : Nat) : Int := butterfly b x m 1 k

/-- `KERNEL2(x)[k]`: the two-tap sum and difference, without a table (40_kernel.md R98). -/
def kernel2 (x : Nat → Int) (k : Nat) : Int :=
  if k = 0 then Config.g2 * (x 0 + x 1) else Config.g2 * (x 0 - x 1)

/-- `KERNEL2(x) if N == 2 else KERNEL(N, x)`, whatever the variant (41_pass_ops.md R132, 40_kernel.md R110, R112).
The matrix product is taken for every ROM: DEDUCED, safe, log entry 6. -/
def transform (r : Rom) (n : Nat) (x : Nat → Int) (k : Nat) : Int :=
  if n = 2 then kernel2 x k else kernel (romEntry r n) n x k

/-- `VOUT(y)`: the vertical output stage (40_kernel.md R99). -/
def vout (y : Int) : Int := clamp32 y

/-- The rounding, shift and 32-bit clamp under each reading of the clamp's place (40_kernel.md R102). -/
def roundShift (h : HClamp) (v : Int) (s : Nat) : Int :=
  match h with
  | .none => asr (v + addOf s) s
  | .afterAccumulation => asr (clamp32 v + addOf s) s
  | .afterAdd => asr (clamp32 (v + addOf s)) s

/-- `HOUT(S, s, lo, hi)`: the horizontal output stage (40_kernel.md R101). -/
def hout (v : Int) (s : Nat) (lo hi : Int) : Int :=
  sat16 (clamp (roundShift Config.hclamp v s) lo hi)

end Sys2Proof.Machine
end

