-- ==== Sys2Proof/Machine/Ops.lean ====
section
/-! DEFINITION. The named operations over buffers and registers: reading and writing an element, storing the output region
of a pass, the two passes, ending a command, and taking a fault (20_memory.md, 41_pass_ops.md, 60_exceptions.md). -/

namespace Sys2Proof.Machine

/-- The cell at index `i`, if the element has been written since reset. -/
def Memory.lookup {w : Nat} : Memory w → Nat → Option (BitVec w)
  | [], _ => none
  | (a, v) :: rest, i => if a = i then some v else Memory.lookup rest i

/-- Element `i`, an unwritten one being the free value `free i`. -/
def Memory.read {w : Nat} (free : Nat → BitVec w) (m : Memory w) (i : Nat) : BitVec w :=
  (Memory.lookup m i).getD (free i)

/-- Element `i` becomes `v`; the cells stay in rising order. -/
def Memory.write {w : Nat} : Memory w → Nat → BitVec w → Memory w
  | [], i, v => [(i, v)]
  | (a, u) :: rest, i, v =>
    if i < a then (i, v) :: (a, u) :: rest
    else if i = a then (i, v) :: rest
    else (a, u) :: Memory.write rest i v

/-- The values as cells at rising indices from `i` on. -/
def Memory.number {w : Nat} : Nat → List (BitVec w) → Memory w
  | _, [] => []
  | i, v :: vs => (i, v) :: Memory.number (i + 1) vs

/-- Elements `0 .. vs.length - 1` become `vs`, every other element is unchanged: how a command writes its output buffer,
whose write set always begins at element 0 (20_memory.md R54, R56, R57). -/
def Memory.storeRegion {w : Nat} (m : Memory w) (vs : List (BitVec w)) : Memory w :=
  Memory.number 0 vs ++ m.filter fun c => decide (vs.length ≤ c.1)

/-- The cells' indices rise strictly from `lo` on and stay below the buffer's depth. -/
def Memory.risingFrom {w : Nat} (lo : Nat) : Memory w → Bool
  | [] => true
  | (a, _) :: rest => decide (lo ≤ a) && decide (a < Config.bufDepth) && Memory.risingFrom (a + 1) rest

/-- The canonical form of a buffer. -/
def Memory.wf {w : Nat} (m : Memory w) : Bool := Memory.risingFrom 0 m

/-- `MemRead(CBUF[i], 2)` (00_scope.md R9). -/
def State.readCbuf (s : State) (i : Nat) : Int := (Memory.read (Config.freeCbuf s.draw) s.cbuf i).toInt

/-- `MemRead(TBUF[i], 4)`. -/
def State.readTbuf (s : State) (i : Nat) : Int := (Memory.read (Config.freeTbuf s.draw) s.tbuf i).toInt

/-- `MemRead(RBUF[i], 2)`. -/
def State.readRbuf (s : State) (i : Nat) : Int := (Memory.read (Config.freeRbuf s.draw) s.rbuf i).toInt

/-- `MemRead(B[i], n)` for the buffer named. -/
def State.readBuf (s : State) (b : BufName) (i : Nat) : Int :=
  match b with
  | .cbuf => s.readCbuf i
  | .tbuf => s.readTbuf i
  | .rbuf => s.readRbuf i

/-- `REG.<name>` (10_state.md R27). -/
def State.readReg (s : State) (r : Reg) : Word :=
  match r with
  | .cmd => s.cmd
  | .status => s.status
  | .omin => s.omin
  | .omax => s.omax

/-- The outputs of one pass in the order of the output buffer: for each line `l` the input vector `x[j] = IN[j*L + l]`,
and its `n` results, which are row `l` of the output (20_memory.md R55, 41_pass_ops.md R132, R133). -/
def passOutputs (r : Rom) (n lines : Nat) (input : Nat → Int) (stage : Int → Int) : List Int :=
  (List.range lines).flatMap fun l =>
    let x := (List.range n).map fun j => input (j * lines + l)
    (List.range n).map fun k => stage (transform r n (fun j => x.getD j 0) k)

/-- `PASSV(N, L)` (41_pass_ops.md R132). -/
def passV (n lines : Nat) (s : State) : State :=
  let outs := passOutputs s.rom n lines s.readCbuf vout
  { s with tbuf := Memory.storeRegion s.tbuf (outs.map (BitVec.ofInt 32)) }

/-- `PASSH(N, L, s, lo, hi)` (41_pass_ops.md R133). -/
def passH (n lines sh : Nat) (lo hi : Int) (s : State) : State :=
  let outs := passOutputs s.rom n lines s.readTbuf fun v => hout v sh lo hi
  { s with rbuf := Memory.storeRegion s.rbuf (outs.map (BitVec.ofInt 16)) }

/-- The end of a command that completed: `STATUS.DONE <- 1` (41_pass_ops.md R134, 42_itx2d_ops.md R151). -/
def State.complete (s : State) : State := { s with status := withDone s.status }

/-- `raise Fault(cause)`: fault entry, which changes STATUS and nothing else (60_exceptions.md R163). There is no return
from it but `State.resetFrom` (R166). -/
def State.raiseFault (c : FaultCause) (s : State) : State := { s with status := withFault c s.status }

/-- `Reset`: the registers at their reset values, every buffer element unspecified again by a new draw, the ROM unchanged,
VARIANT sampled again (70_reset_and_hazards.md R180). The host's own fields are not the engine's to reset. -/
def State.resetFrom (s : State) : State :=
  { State.reset with rom := s.rom, draw := s.draw + 1, ops := s.ops, ci := s.ci, reply := s.reply }

end Sys2Proof.Machine
end

