-- ==== Sys2Proof/Machine/Operands.lean ====
section
/-! DEFINITION. The operands of a command and the checks on them (30_encoding.md R77, 60_exceptions.md R161 checks 3 and 4).
Checks 1 and 2 are the decoder's. There is one operand form: command fields, OMIN, OMAX and fixed buffer regions. -/

namespace Sys2Proof.Machine

/-- `L = zext_7(w[22:16])`. -/
def lineOperand (line : Line) : Nat := line.toNat

/-- `s = zext_5(w[12:8])`. -/
def shiftOperand (shift : Shift) : Nat := shift.toNat

/-- `lo = sext_32(REG.OMIN)`. -/
def State.rangeLow (s : State) : Int := s.omin.toInt

/-- `hi = sext_32(REG.OMAX)`. -/
def State.rangeHigh (s : State) : Int := s.omax.toInt

/-- Check 3 of a single pass: `1 <= L <= 64`. -/
def singleLineOk (line : Line) : Bool := decide (1 ≤ lineOperand line ∧ lineOperand line ≤ 64)

/-- Check 3 of a 2-D command: `1 <= L <= 64` and `L == N`. -/
def squareLineOk (n : Nat) (line : Line) : Bool := singleLineOk line && decide (lineOperand line = n)

/-- Check 4: `sext_32(OMIN) <= sext_32(OMAX)`. -/
def State.rangeOk (s : State) : Bool := decide (s.rangeLow ≤ s.rangeHigh)

/-- Execution of an `ITXV.n` command: check 3, then the vertical pass (41_pass_ops.md R134). -/
def runVertical (n : Nat) (line : Line) (s : State) : State :=
  if singleLineOk line then (passV n (lineOperand line) s).complete
  else s.raiseFault .badLine

/-- Execution of an `ITXH.n` command: checks 3 and 4, then the horizontal pass (41_pass_ops.md R134). -/
def runHorizontal (n : Nat) (shift : Shift) (line : Line) (s : State) : State :=
  if singleLineOk line then
    if s.rangeOk then (passH n (lineOperand line) (shiftOperand shift) s.rangeLow s.rangeHigh s).complete
    else s.raiseFault .badRange
  else s.raiseFault .badLine

/-- `ITX2D(N, s, lo, hi)`: the vertical pass, then the horizontal pass on its result (42_itx2d_ops.md R141). -/
def pass2D (n sh : Nat) (lo hi : Int) (s : State) : State := passH n n sh lo hi (passV n n s)

/-- Execution of an `ITX.n` command: checks 3 and 4, both before the first pass, then the two passes
(42_itx2d_ops.md R151). -/
def run2D (n : Nat) (shift : Shift) (line : Line) (s : State) : State :=
  if squareLineOk n line then
    if s.rangeOk then (pass2D n (shiftOperand shift) s.rangeLow s.rangeHigh s).complete
    else s.raiseFault .badRange
  else s.raiseFault .badLine

end Sys2Proof.Machine
end

