-- ==== Sys2Proof/Machine/Horizontal.lean ====
section
/-! DEFINITION. The horizontal-step commands `ITXH.n` (41_pass_ops.md R126 to R131): 32-bit in, 16-bit out. -/

namespace Sys2Proof.Machine

/-- `ITXH.2` (R126): the two-tap base case, no ROM access. -/
def execItxh2 (shift : Shift) (line : Line) (s : State) : Host.Outcome State Fault Refusal :=
  .next (runHorizontal 2 shift line s)

/-- `ITXH.4` (R127): table `TM4`. -/
def execItxh4 (shift : Shift) (line : Line) (s : State) : Host.Outcome State Fault Refusal :=
  .next (runHorizontal 4 shift line s)

/-- `ITXH.8` (R128): table `TM8`. -/
def execItxh8 (shift : Shift) (line : Line) (s : State) : Host.Outcome State Fault Refusal :=
  .next (runHorizontal 8 shift line s)

/-- `ITXH.16` (R129): table `TM16`. -/
def execItxh16 (shift : Shift) (line : Line) (s : State) : Host.Outcome State Fault Refusal :=
  .next (runHorizontal 16 shift line s)

/-- `ITXH.32` (R130): table `TM32`. -/
def execItxh32 (shift : Shift) (line : Line) (s : State) : Host.Outcome State Fault Refusal :=
  .next (runHorizontal 32 shift line s)

/-- `ITXH.64` (R131): table `TM64`. -/
def execItxh64 (shift : Shift) (line : Line) (s : State) : Host.Outcome State Fault Refusal :=
  .next (runHorizontal 64 shift line s)

end Sys2Proof.Machine
end

