-- ==== Sys2Proof/Machine/TwoD.lean ====
section
/-! DEFINITION. The 2-D commands `ITX.n` (42_itx2d_ops.md R145 to R150): vertical, then horizontal. -/

namespace Sys2Proof.Machine

/-- `ITX.2` (R145): the two-tap base case, no ROM access. -/
def execItx2 (shift : Shift) (line : Line) (s : State) : Host.Outcome State Fault Refusal :=
  .next (run2D 2 shift line s)

/-- `ITX.4` (R146): table `TM4`. -/
def execItx4 (shift : Shift) (line : Line) (s : State) : Host.Outcome State Fault Refusal :=
  .next (run2D 4 shift line s)

/-- `ITX.8` (R147): table `TM8`. -/
def execItx8 (shift : Shift) (line : Line) (s : State) : Host.Outcome State Fault Refusal :=
  .next (run2D 8 shift line s)

/-- `ITX.16` (R148): table `TM16`. -/
def execItx16 (shift : Shift) (line : Line) (s : State) : Host.Outcome State Fault Refusal :=
  .next (run2D 16 shift line s)

/-- `ITX.32` (R149): table `TM32`. -/
def execItx32 (shift : Shift) (line : Line) (s : State) : Host.Outcome State Fault Refusal :=
  .next (run2D 32 shift line s)

/-- `ITX.64` (R150): table `TM64`. -/
def execItx64 (shift : Shift) (line : Line) (s : State) : Host.Outcome State Fault Refusal :=
  .next (run2D 64 shift line s)

end Sys2Proof.Machine
end

