-- ==== Sys2Proof/Machine/Vertical.lean ====
section
/-! DEFINITION. The vertical-step commands `ITXV.n` (41_pass_ops.md R120 to R125): 16-bit in, 32-bit out, SHIFT, OMIN and OMAX unread. -/

namespace Sys2Proof.Machine

/-- `ITXV.2` (R120): the two-tap base case, no ROM access. -/
def execItxv2 (_shift : Shift) (line : Line) (s : State) : Host.Outcome State Fault Refusal :=
  .next (runVertical 2 line s)

/-- `ITXV.4` (R121): table `TM4`. -/
def execItxv4 (_shift : Shift) (line : Line) (s : State) : Host.Outcome State Fault Refusal :=
  .next (runVertical 4 line s)

/-- `ITXV.8` (R122): table `TM8`. -/
def execItxv8 (_shift : Shift) (line : Line) (s : State) : Host.Outcome State Fault Refusal :=
  .next (runVertical 8 line s)

/-- `ITXV.16` (R123): table `TM16`. -/
def execItxv16 (_shift : Shift) (line : Line) (s : State) : Host.Outcome State Fault Refusal :=
  .next (runVertical 16 line s)

/-- `ITXV.32` (R124): table `TM32`. -/
def execItxv32 (_shift : Shift) (line : Line) (s : State) : Host.Outcome State Fault Refusal :=
  .next (runVertical 32 line s)

/-- `ITXV.64` (R125): table `TM64`. -/
def execItxv64 (_shift : Shift) (line : Line) (s : State) : Host.Outcome State Fault Refusal :=
  .next (runVertical 64 line s)

end Sys2Proof.Machine
end

