-- ==== Sys2Proof/Machine/Dispatch.lean ====
section
/-! DEFINITION. Which meaning each command has. -/

namespace Sys2Proof.Machine

/-- Execute a decoded command. -/
def exec (i : Instr) (s : State) : Host.Outcome State Fault Refusal :=
  match i with
  | .itxv2 shift line => Sys2Proof.Machine.execItxv2 shift line s
  | .itxv4 shift line => Sys2Proof.Machine.execItxv4 shift line s
  | .itxv8 shift line => Sys2Proof.Machine.execItxv8 shift line s
  | .itxv16 shift line => Sys2Proof.Machine.execItxv16 shift line s
  | .itxv32 shift line => Sys2Proof.Machine.execItxv32 shift line s
  | .itxv64 shift line => Sys2Proof.Machine.execItxv64 shift line s
  | .itxh2 shift line => Sys2Proof.Machine.execItxh2 shift line s
  | .itxh4 shift line => Sys2Proof.Machine.execItxh4 shift line s
  | .itxh8 shift line => Sys2Proof.Machine.execItxh8 shift line s
  | .itxh16 shift line => Sys2Proof.Machine.execItxh16 shift line s
  | .itxh32 shift line => Sys2Proof.Machine.execItxh32 shift line s
  | .itxh64 shift line => Sys2Proof.Machine.execItxh64 shift line s
  | .itx2 shift line => Sys2Proof.Machine.execItx2 shift line s
  | .itx4 shift line => Sys2Proof.Machine.execItx4 shift line s
  | .itx8 shift line => Sys2Proof.Machine.execItx8 shift line s
  | .itx16 shift line => Sys2Proof.Machine.execItx16 shift line s
  | .itx32 shift line => Sys2Proof.Machine.execItx32 shift line s
  | .itx64 shift line => Sys2Proof.Machine.execItx64 shift line s

end Sys2Proof.Machine
end

