-- ==== Sys2Proof/Machine/HostOps.lean ====
section
/-! DEFINITION. The host operations, one definition each (43_host_ops.md R155 to R159, R200), and the issue of the host's next
operation. A host write in the FAULT state is accepted and ignored; a read works the same (60_exceptions.md R165). -/

namespace Sys2Proof.Machine

/-- A host write: ignored in the FAULT state. -/
def State.unlessFaulted (s t : State) : State := if s.faulted then s else t

/-- `HostWriteBuf(CBUF, i, v)` (43_host_ops.md R155). -/
def State.storeCbuf (i : BufIndex) (v : S16) (s : State) : State :=
  s.unlessFaulted { s with cbuf := Memory.write s.cbuf i.toNat v }

/-- `HostWriteBuf(TBUF, i, v)`. -/
def State.storeTbuf (i : BufIndex) (v : S32) (s : State) : State :=
  s.unlessFaulted { s with tbuf := Memory.write s.tbuf i.toNat v }

/-- `HostWriteBuf(RBUF, i, v)`. -/
def State.storeRbuf (i : BufIndex) (v : S16) (s : State) : State :=
  s.unlessFaulted { s with rbuf := Memory.write s.rbuf i.toNat v }

/-- `HostWriteReg(2, w)` (43_host_ops.md R157). -/
def State.storeOmin (w : Word) (s : State) : State := s.unlessFaulted { s with omin := w }

/-- `HostWriteReg(3, w)`. -/
def State.storeOmax (w : Word) (s : State) : State := s.unlessFaulted { s with omax := w }

/-- The cause a rejected word faults with: checks 1 and 2 of 60_exceptions.md R161. -/
def decodeCause : DecodeError → FaultCause
  | .illegalCmd => .illegalCmd
  | .badSize => .badSize

/-- `HostWriteReg(0, w)`: nothing in the FAULT state; else CMD takes the word and the command runs completely
(43_host_ops.md R159, 10_state.md R28). -/
def issueCommand (w : Word) (s : State) : Host.Outcome State Fault Refusal :=
  if s.faulted then .next s
  else
    match decode w with
    | .ok i => exec i { s with cmd := w }
    | .error e => .next (State.raiseFault (decodeCause e) { s with cmd := w })

/-- `HostWriteReg(r, w)`; a write of STATUS is accepted and has no effect (10_state.md R31). -/
def hostWriteReg (r : Reg) (w : Word) (s : State) : Host.Outcome State Fault Refusal :=
  match r with
  | .cmd => issueCommand w s
  | .status => .next s
  | .omin => .next (s.storeOmin w)
  | .omax => .next (s.storeOmax w)

/-- One host operation (10_state.md R32). -/
def hostOp (op : HostOp) (s : State) : Host.Outcome State Fault Refusal :=
  match op with
  | .writeReg r w => hostWriteReg r w s
  | .readReg r => .next { s with reply := some (.register (s.readReg r)) }
  | .writeCbuf i v => .next (s.storeCbuf i v)
  | .writeTbuf i v => .next (s.storeTbuf i v)
  | .writeRbuf i v => .next (s.storeRbuf i v)
  | .readBuf b i => .next { s with reply := some (.element (s.readBuf b i.toNat)) }
  | .reset => .next s.resetFrom

/-- The host has issued its next operation: `rest` is still to come, the command index counts on (10_state.md R37), and the
operation has returned nothing yet. -/
def State.issue (rest : List HostOp) (s : State) : State :=
  { s with ops := rest, ci := s.ci + 1, reply := none }

end Sys2Proof.Machine
end

