-- ==== Sys2Proof/Machine/Step.lean ====
section
/-! DEFINITION. One step: one host operation, complete before the next (20_memory.md R60, R63). The engine never acts on its
own (10_state.md R20): with no operation waiting it is idle, and nothing changes (log entry 1). -/

namespace Sys2Proof.Machine

/-- One step of the machine. -/
def step (s : State) : Host.Outcome State Fault Refusal :=
  match s.ops with
  | [] => .next s
  | op :: rest => hostOp op (s.issue rest)

/-- The state in which the host's next operation is the write of this opcode-table word to CMD: the one way a command comes
to the engine (20_memory.md R66; log entry 1). The operations waiting stay behind it. -/
def State.withFetchWord (s : State) (nbits w : Nat) : State :=
  { s with ops := .writeReg .cmd (BitVec.ofNat 32 (w % 2 ^ nbits)) :: s.ops }

end Sys2Proof.Machine
end

