-- ==== Sys2Proof/Machine/Script.lean ====
section
/-! DEFINITION. The host-script statements and the host operations they stand for (30_encoding.md R81, R82). -/

namespace Sys2Proof.Machine

/-- The sizes a statement may name. -/
inductive Size where
  | n2
  | n4
  | n8
  | n16
  | n32
  | n64
deriving DecidableEq, Repr

/-- `log2(n)`. -/
def Size.log2 : Size → BitVec 3
  | .n2 => 1
  | .n4 => 2
  | .n8 => 3
  | .n16 => 4
  | .n32 => 5
  | .n64 => 6

/-- `n` as a LINE field. -/
def Size.line : Size → Line
  | .n2 => 2
  | .n4 => 4
  | .n8 => 8
  | .n16 => 16
  | .n32 => 32
  | .n64 => 64

/-- One statement of a script. -/
inductive Statement where
  /-- `ITXV.<n> line=<L>`. -/
  | itxv (n : Size) (line : Line)
  /-- `ITXH.<n> line=<L>, shift=<s>`. -/
  | itxh (n : Size) (line : Line) (shift : Shift)
  /-- `ITX.<n> shift=<s>`. -/
  | itx (n : Size) (shift : Shift)
  /-- `.word <w>`. -/
  | word (w : Word)
  /-- `wr OMIN, <v>`. -/
  | wrOmin (v : Int)
  /-- `wr OMAX, <v>`. -/
  | wrOmax (v : Int)
  /-- `wr STATUS, <v>`: accepted, without effect (43_host_ops.md R157). -/
  | wrStatus (v : Int)
  /-- `rd <reg>`. -/
  | rd (r : Reg)
  /-- `st <B>[<i>], <v>`. -/
  | st (b : BufName) (i : BufIndex) (v : Int)
  /-- `ld <B>[<i>]`. -/
  | ld (b : BufName) (i : BufIndex)
  /-- `reset`. -/
  | reset
deriving DecidableEq, Repr

/-- The host operation a statement stands for. `ITXV.<n>` fills SHIFT with 0 and `ITX.<n>` fills LINE with n (R82).
A literal outside its register or element is cut to its low bits: DESIGN CHOICE, unsafe, log entry 15. -/
def Statement.op : Statement → HostOp
  | .itxv n line => .writeReg .cmd (encodeFields false true n.log2 0 line)
  | .itxh n line shift => .writeReg .cmd (encodeFields true false n.log2 shift line)
  | .itx n shift => .writeReg .cmd (encodeFields true true n.log2 shift n.line)
  | .word w => .writeReg .cmd w
  | .wrOmin v => .writeReg .omin (BitVec.ofInt 32 v)
  | .wrOmax v => .writeReg .omax (BitVec.ofInt 32 v)
  | .wrStatus v => .writeReg .status (BitVec.ofInt 32 v)
  | .rd r => .readReg r
  | .st .cbuf i v => .writeCbuf i (BitVec.ofInt 16 v)
  | .st .tbuf i v => .writeTbuf i (BitVec.ofInt 32 v)
  | .st .rbuf i v => .writeRbuf i (BitVec.ofInt 16 v)
  | .ld b i => .readBuf b i
  | .reset => .reset

/-- The state in which the host has a script to issue. -/
def State.withScript (s : State) (script : List Statement) : State :=
  { s with ops := script.map Statement.op }

end Sys2Proof.Machine
end

