-- ==== Sys2Proof/WellFormed.lean ====
section
/-! DEFINITION. The operand check of a command as syntax: is its LINE legal for its row (30_encoding.md R74)?
A command that fails it is still that command (R76); executing it faults BAD_LINE. -/

namespace Sys2Proof

/-- LINE of a single pass: 1 to 64 (30_encoding.md R74). -/
def singleLineLegal (line : Line) : Bool := decide (1 ≤ line.toNat) && decide (line.toNat ≤ 64)

/-- LINE of the 2-D command of size `n`: exactly `n` (30_encoding.md R74). -/
def squareLineLegal (n : Nat) (line : Line) : Bool := decide (line.toNat = n)

/-- The command's LINE is legal for its row. -/
def Instr.wellFormed : Instr → Bool
  | .itxv2 _ line => singleLineLegal line
  | .itxv4 _ line => singleLineLegal line
  | .itxv8 _ line => singleLineLegal line
  | .itxv16 _ line => singleLineLegal line
  | .itxv32 _ line => singleLineLegal line
  | .itxv64 _ line => singleLineLegal line
  | .itxh2 _ line => singleLineLegal line
  | .itxh4 _ line => singleLineLegal line
  | .itxh8 _ line => singleLineLegal line
  | .itxh16 _ line => singleLineLegal line
  | .itxh32 _ line => singleLineLegal line
  | .itxh64 _ line => singleLineLegal line
  | .itx2 _ line => squareLineLegal 2 line
  | .itx4 _ line => squareLineLegal 4 line
  | .itx8 _ line => squareLineLegal 8 line
  | .itx16 _ line => squareLineLegal 16 line
  | .itx32 _ line => squareLineLegal 32 line
  | .itx64 _ line => squareLineLegal 64 line

end Sys2Proof
end

