-- ==== Sys2Proof/Safety.lean ====
section
/-! DEFINITION. What holds of every machine state a run reaches, in the terms the statements use, and the constraint the
spec puts on a configuration. -/

namespace Sys2Proof.Machine

/-- All three buffers are in canonical form. -/
def State.buffersCanonical (s : State) : Bool :=
  Memory.wf s.cbuf && Memory.wf s.tbuf && Memory.wf s.rbuf

/-- STATUS tells the truth about the word in CMD: it is one of the six values of 93_implementation_defined.md U8, and which
one is decided by the word CMD holds (10_state.md R28, R31; 60_exceptions.md R160, R161). In the FAULT state OMIN and OMAX
are still the ones the faulting command was checked with, because writes are ignored (R165). -/
def State.statusTruthful (s : State) : Bool :=
  match decode s.cmd with
  | .error .illegalCmd => s.status == 0x12#32 || (s.status == 0x00#32 && s.cmd == 0#32)
  | .error .badSize => s.status == 0x22#32
  | .ok i =>
    if i.wellFormed then
      s.status == 0x01#32 || (s.status == 0x42#32 && i.horizontal && decide (s.omax.toInt < s.omin.toInt))
    else s.status == 0x32#32

/-- The invariant of the machine. -/
def State.Inv (s : State) : Prop := s.buffersCanonical = true ∧ s.statusTruthful = true

/-- The constraint SYM on a table of size `2 ^ m` (10_state.md R23), level `n = 2 ^ p` with stride `2 ^ (m - p)`. -/
abbrev TableSym (b : Nat → Nat → Int) (m : Nat) : Prop :=
  ∀ p < m + 1, 1 ≤ p → ∀ i < 2 ^ p, ∀ k < 2 ^ (p - 1),
    b (i * 2 ^ (m - p)) (2 ^ p - 1 - k) =
      if i % 2 = 0 then b (i * 2 ^ (m - p)) k else -b (i * 2 ^ (m - p)) k

/-- All five tables satisfy SYM: the configurations inside the spec (10_state.md R23; log entry 6). -/
def Rom.sym (r : Rom) : Prop :=
  TableSym (romEntry r 4) 2 ∧ TableSym (romEntry r 8) 3 ∧ TableSym (romEntry r 16) 4 ∧
    TableSym (romEntry r 32) 5 ∧ TableSym (romEntry r 64) 6

/-- The matrix of `KERNEL2`, rows (1, 1) and (1, -1): whatever the ROM, output 0 is the sum of the taps and output 1 their
difference (40_kernel.md R98). -/
def twoTap (_ : Rom) (j k : Nat) : Int := if j = 1 ∧ k = 1 then -1 else 1

/-- The matrix a transform of size `n` multiplies by: the ROM's table, and for the base case the two-tap sum and difference
of gain 1 (40_kernel.md R91, R98). -/
def basis (r : Rom) (n j k : Nat) : Int :=
  if n = 2 then twoTap r j k else romEntry r n j k

/-- Between `s` and `t` nothing differs but STATUS, the first `tLen` elements of TBUF and the first `rLen` of RBUF. -/
def State.SameBut (s t : State) (tLen rLen : Nat) : Prop :=
  t.cmd = s.cmd ∧ t.omin = s.omin ∧ t.omax = s.omax ∧ t.rom = s.rom ∧ t.variant = s.variant ∧
    t.draw = s.draw ∧ t.ops = s.ops ∧ t.ci = s.ci ∧ t.reply = s.reply ∧
    (∀ i, t.readCbuf i = s.readCbuf i) ∧
    (∀ i, tLen ≤ i → t.readTbuf i = s.readTbuf i) ∧
    (∀ i, rLen ≤ i → t.readRbuf i = s.readRbuf i)

/-- STATUS after a command that completed: DONE is 1, every other bit as before (41_pass_ops.md R134). -/
def DoneStatus (before after : Word) : Prop :=
  after.getLsbD 0 = true ∧ ∀ k, k ≠ 0 → after.getLsbD k = before.getLsbD k

/-- STATUS after a fault: FAULT is 1, DONE is 0, CAUSE (bits 7:4) is `code` if FAULT was 0 before and is kept otherwise,
the reserved bits as before (60_exceptions.md R163). -/
def FaultStatus (code : Nat) (before after : Word) : Prop :=
  after.getLsbD 1 = true ∧ after.getLsbD 0 = false ∧
    after.toNat / 16 % 16 = (if before.getLsbD 1 then before.toNat / 16 % 16 else code) ∧
    ∀ k, k = 2 ∨ k = 3 ∨ 8 ≤ k → after.getLsbD k = before.getLsbD k

/-- One row of the opcode map: the words that match `pattern` under the rows' mask are exactly the words of `command`, with the
operands of their SHIFT and LINE fields (30_encoding.md R76). -/
def RowSelects (pattern : Word) (command : Shift → Line → Instr) : Prop :=
  ∀ w : Word, w &&& 0xFF80E0FF#32 = pattern ↔
    decode w = .ok (command (BitVec.ofNat 5 (w.toNat / 2 ^ 8)) (BitVec.ofNat 7 (w.toNat / 2 ^ 16)))

/-- What an `ITXV.n` of a table size does, with any SHIFT and any output range: it completes, sets DONE, and writes the clamped
products transposed into TBUF and nothing else (41_pass_ops.md R132). -/
def VerticalResult (n : Nat) (table : Rom → Nat → Nat → Int) (command : Shift → Line → Instr) : Prop :=
  ∀ (s : State) (shift : Shift) (line : Line), 1 ≤ line.toNat → line.toNat ≤ 64 →
    ∃ t, exec (command shift line) s = .next t ∧ DoneStatus s.status t.status ∧
      s.SameBut t (n * line.toNat) 0 ∧
      ∀ l < line.toNat, ∀ k < n,
        t.readTbuf (n * l + k) =
          clamp32 (∑ j ∈ Finset.range n, table s.rom j k * s.readCbuf (j * line.toNat + l))

/-- What an `ITXH.n` of a table size does when the output range is not empty (41_pass_ops.md R133). -/
def HorizontalResult (n : Nat) (table : Rom → Nat → Nat → Int) (command : Shift → Line → Instr) : Prop :=
  ∀ (s : State) (shift : Shift) (line : Line), 1 ≤ line.toNat → line.toNat ≤ 64 → s.omin.toInt ≤ s.omax.toInt →
    ∃ t, exec (command shift line) s = .next t ∧ DoneStatus s.status t.status ∧
      s.SameBut t 0 (n * line.toNat) ∧
      ∀ l < line.toNat, ∀ k < n,
        t.readRbuf (n * l + k) =
          hout (∑ j ∈ Finset.range n, table s.rom j k * s.readTbuf (j * line.toNat + l))
            shift.toNat s.omin.toInt s.omax.toInt

/-- What an `ITX.n` of a table size does when the output range is not empty: the closed form of 42_itx2d_ops.md R142. -/
def TwoDResult (n : Nat) (table : Rom → Nat → Nat → Int) (command : Shift → Line → Instr) : Prop :=
  ∀ (s : State) (shift : Shift) (line : Line), line.toNat = n → s.omin.toInt ≤ s.omax.toInt →
    let v (y c : Nat) : Int := clamp32 (∑ r ∈ Finset.range n, table s.rom r y * s.readCbuf (r * n + c))
    ∃ t, exec (command shift line) s = .next t ∧ DoneStatus s.status t.status ∧
      s.SameBut t (n * n) (n * n) ∧
      (∀ c < n, ∀ y < n, t.readTbuf (c * n + y) = v y c) ∧
      ∀ y < n, ∀ x < n, t.readRbuf (y * n + x) =
        hout (∑ c ∈ Finset.range n, table s.rom c x * v y c) shift.toNat s.omin.toInt s.omax.toInt

end Sys2Proof.Machine
end

