-- ==== Sys2Proof/Certificates/Slice0/Obligations.lean ====
section
/-! DEFINITION. The statements for the provers. Each docstring names the rule of spec/ the statement formalises. Nothing here
rests on the value of a free value or of an open parameter. -/

open Sys2Proof Sys2Proof.Machine

/-! ### Encoding -/

/-- Decoding the word of a command gives the command back, every SHIFT and every LINE included (30_encoding.md R70, R76, R83). -/
def Obligations.DecodeInvertsEncode : Prop :=
  ∀ i : Instr, decode (encode i) = .ok i

/-- A word that decodes to a command is that command's word: no two words are one command (R70, R75, R76). -/
def Obligations.EncodeInvertsDecode : Prop :=
  ∀ (w : Word) (i : Instr), decode w = .ok i → encode i = w

/-- The decode procedure of R83, with the fields as numbers. -/
def Obligations.DecodeFollowsTheProcedure : Prop :=
  ∀ w : Word,
    if w.toNat / 2 ^ 5 % 8 ≠ 0 ∨ w.toNat / 2 ^ 13 % 8 ≠ 0 ∨ w.toNat / 2 ^ 23 ≠ 0 then
      decode w = .error .illegalCmd
    else if w.toNat / 2 ^ 3 % 4 = 0 then decode w = .error .illegalCmd
    else if w.toNat % 8 = 0 ∨ w.toNat % 8 = 7 then decode w = .error .badSize
    else ∃ i, decode w = .ok i ∧ i.log2n = w.toNat % 8 ∧ i.size = 2 ^ (w.toNat % 8) ∧
      (i.horizontal = true ↔ w.toNat / 2 ^ 4 % 2 = 1) ∧ (i.vertical = true ↔ w.toNat / 2 ^ 3 % 2 = 1) ∧
      i.shift.toNat = w.toNat / 2 ^ 8 % 32 ∧ i.line.toNat = w.toNat / 2 ^ 16 % 128

/-- The opcode map of R76, its 18 rows written out; and a command whose LINE is illegal for its row is still that command
and faults BAD_LINE when executed. -/
def Obligations.OpcodeMapSelectsTheRow : Prop :=
  RowSelects 0x00000009#32 .itxv2 ∧ RowSelects 0x0000000A#32 .itxv4 ∧ RowSelects 0x0000000B#32 .itxv8 ∧
  RowSelects 0x0000000C#32 .itxv16 ∧ RowSelects 0x0000000D#32 .itxv32 ∧ RowSelects 0x0000000E#32 .itxv64 ∧
  RowSelects 0x00000011#32 .itxh2 ∧ RowSelects 0x00000012#32 .itxh4 ∧ RowSelects 0x00000013#32 .itxh8 ∧
  RowSelects 0x00000014#32 .itxh16 ∧ RowSelects 0x00000015#32 .itxh32 ∧ RowSelects 0x00000016#32 .itxh64 ∧
  RowSelects 0x00000019#32 .itx2 ∧ RowSelects 0x0000001A#32 .itx4 ∧ RowSelects 0x0000001B#32 .itx8 ∧
  RowSelects 0x0000001C#32 .itx16 ∧ RowSelects 0x0000001D#32 .itx32 ∧ RowSelects 0x0000001E#32 .itx64 ∧
  ∀ (i : Instr) (s : State), i.wellFormed = false →
    ∃ t, exec i s = .next t ∧ FaultStatus 3 s.status t.status ∧ s.SameBut t 0 0

/-- The encoding examples of R84: each statement stands for its word, and the word decodes to the command. -/
def Obligations.EncodingExamples : Prop :=
  (Statement.op (.itx .n2 0) = .writeReg .cmd 0x00020019#32 ∧ decode 0x00020019#32 = .ok (.itx2 0 2)) ∧
  (Statement.op (.itx .n4 12) = .writeReg .cmd 0x00040C1A#32 ∧ decode 0x00040C1A#32 = .ok (.itx4 12 4)) ∧
  (Statement.op (.itx .n8 12) = .writeReg .cmd 0x00080C1B#32 ∧ decode 0x00080C1B#32 = .ok (.itx8 12 8)) ∧
  (Statement.op (.itx .n64 19) = .writeReg .cmd 0x0040131E#32 ∧ decode 0x0040131E#32 = .ok (.itx64 19 64)) ∧
  (Statement.op (.itxv .n8 8) = .writeReg .cmd 0x0008000B#32 ∧ decode 0x0008000B#32 = .ok (.itxv8 0 8)) ∧
  (Statement.op (.itxv .n4 2) = .writeReg .cmd 0x0002000A#32 ∧ decode 0x0002000A#32 = .ok (.itxv4 0 2)) ∧
  (Statement.op (.itxh .n8 8 7) = .writeReg .cmd 0x00080713#32 ∧ decode 0x00080713#32 = .ok (.itxh8 7 8)) ∧
  (Statement.op (.itxh .n2 1 20) = .writeReg .cmd 0x00011411#32 ∧ decode 0x00011411#32 = .ok (.itxh2 20 1))

/-! ### The step -/

/-- When the host's next operation is the write to CMD of a word that decodes to a command, and the engine is not in the FAULT
state, the step is `exec` of that command at the state in which the operation is taken from the host's list, the command
index has counted on, nothing has been returned to the host, and CMD holds the word (43_host_ops.md R159, 10_state.md R28, R37). -/
def Obligations.StepRunsTheDecodedCommand : Prop :=
  ∀ (s : State) (w : Word) (rest : List HostOp) (i : Instr),
    s.ops = .writeReg .cmd w :: rest → s.status.getLsbD 1 = false → decode w = .ok i →
    step s = exec i { s with ops := rest, ci := s.ci + 1, reply := none, cmd := w }

/-- An opcode-table word placed as the host's next operation runs as the command the decoder reads from it (the model's own
interface: log entry 1). -/
def Obligations.PlacedWordRunsItsCommand : Prop :=
  ∀ (s : State) (w : Nat) (i : Instr),
    decodeTableWord 32 w = some i → s.status.getLsbD 1 = false →
    step (s.withFetchWord 32 w) = exec i { s with ci := s.ci + 1, reply := none, cmd := BitVec.ofNat 32 w }

/-- The checks of a command in the order of R161, the first that fails deciding the cause; none depends on a buffer, and a
command that fails one changes nothing but CMD and STATUS. -/
def Obligations.CommandChecksInOrder : Prop :=
  ∀ (s : State) (w : Word) (rest : List HostOp),
    s.ops = .writeReg .cmd w :: rest → s.status.getLsbD 1 = false →
    let v := w.toNat
    let L := v / 2 ^ 16 % 128
    let pv := v / 2 ^ 3 % 2
    let ph := v / 2 ^ 4 % 2
    let u : State := { s with ops := rest, ci := s.ci + 1, reply := none, cmd := w }
    ∃ t, step s = .next t ∧ t.cmd = w ∧
      if v / 2 ^ 5 % 8 ≠ 0 ∨ v / 2 ^ 13 % 8 ≠ 0 ∨ v / 2 ^ 23 ≠ 0 ∨ (pv = 0 ∧ ph = 0) then
        FaultStatus 1 s.status t.status ∧ u.SameBut t 0 0
      else if v % 8 = 0 ∨ v % 8 = 7 then FaultStatus 2 s.status t.status ∧ u.SameBut t 0 0
      else if L = 0 ∨ 64 < L ∨ (pv = 1 ∧ ph = 1 ∧ L ≠ 2 ^ (v % 8)) then
        FaultStatus 3 s.status t.status ∧ u.SameBut t 0 0
      else if ph = 1 ∧ s.omax.toInt < s.omin.toInt then FaultStatus 4 s.status t.status ∧ u.SameBut t 0 0
      else DoneStatus s.status t.status

/-- The FAULT state of R165: every host write is accepted and ignored, every host read returns the current value, and FAULT
and CAUSE stay; the only operation this does not hold of is reset. -/
def Obligations.FaultStateIgnoresWrites : Prop :=
  ∀ (s : State) (op : HostOp) (rest : List HostOp),
    s.ops = op :: rest → s.status.getLsbD 1 = true → op ≠ .reset →
    step s = .next { s with
      ops := rest
      ci := s.ci + 1
      reply := match op with
        | .readReg .cmd => some (.register s.cmd)
        | .readReg .status => some (.register s.status)
        | .readReg .omin => some (.register s.omin)
        | .readReg .omax => some (.register s.omax)
        | .readBuf .cbuf i => some (.element (s.readCbuf i.toNat))
        | .readBuf .tbuf i => some (.element (s.readTbuf i.toNat))
        | .readBuf .rbuf i => some (.element (s.readRbuf i.toNat))
        | _ => none }

/-- The only way out of the FAULT state is Reset, and Reset leaves it (60_exceptions.md R166). -/
def Obligations.OnlyResetLeavesTheFaultState : Prop :=
  ∀ s t : State, s.status.getLsbD 1 = true → step s = .next t →
    (t.status.getLsbD 1 = false ↔ ∃ rest, s.ops = .reset :: rest) ∧
    (t.status.getLsbD 1 = true → t.status = s.status)

/-- The registers after reset, at State.reset and after the host operation Reset in any state; every buffer element then holds
some value of its type; the ROM is not affected and VARIANT is sampled from the configuration (10_state.md R39). -/
def Obligations.RegistersAfterReset : Prop :=
  let held (t : State) : Prop :=
    t.cmd = 0x00000000#32 ∧ t.status = 0x00000000#32 ∧ t.omin.toInt = -32768 ∧ t.omax.toInt = 32767 ∧
    t.variant = Config.variant ∧
    ∀ i, (-32768 ≤ t.readCbuf i ∧ t.readCbuf i ≤ 32767) ∧
      (-2147483648 ≤ t.readTbuf i ∧ t.readTbuf i ≤ 2147483647) ∧ (-32768 ≤ t.readRbuf i ∧ t.readRbuf i ≤ 32767)
  held State.reset ∧ State.reset.rom = Config.rom ∧
  ∀ (s : State) (rest : List HostOp), s.ops = .reset :: rest →
    ∃ t, step s = .next t ∧ held t ∧ t.rom = s.rom ∧ t.ops = rest ∧ t.ci = s.ci + 1

/-- After Reset no buffer element keeps what it held: every one is the free value of a draw that is not the one before (the
model's form of R180's "unspecified": log entry 2). It holds whatever the free values are. -/
def Obligations.BuffersRedrawnAtReset : Prop :=
  ∀ (s : State) (rest : List HostOp), s.ops = .reset :: rest →
    ∃ t, step s = .next t ∧ t.draw ≠ s.draw ∧
      ∀ i, t.readCbuf i = (Config.freeCbuf t.draw i).toInt ∧ t.readTbuf i = (Config.freeTbuf t.draw i).toInt ∧
        t.readRbuf i = (Config.freeRbuf t.draw i).toInt

/-- A host read returns the register, or the element as a signed integer, and changes nothing else, in the FAULT state or out
of it (43_host_ops.md R156, R158). -/
def Obligations.HostReadsReturnCurrentValues : Prop :=
  ∀ (s : State) (rest : List HostOp),
    let returned (r : HostReply) : State := { s with ops := rest, ci := s.ci + 1, reply := some r }
    (s.ops = .readReg .cmd :: rest → step s = .next (returned (.register s.cmd))) ∧
    (s.ops = .readReg .status :: rest → step s = .next (returned (.register s.status))) ∧
    (s.ops = .readReg .omin :: rest → step s = .next (returned (.register s.omin))) ∧
    (s.ops = .readReg .omax :: rest → step s = .next (returned (.register s.omax))) ∧
    ∀ i : BufIndex,
      (s.ops = .readBuf .cbuf i :: rest → step s = .next (returned (.element (s.readCbuf i.toNat)))) ∧
      (s.ops = .readBuf .tbuf i :: rest → step s = .next (returned (.element (s.readTbuf i.toNat)))) ∧
      (s.ops = .readBuf .rbuf i :: rest → step s = .next (returned (.element (s.readRbuf i.toNat))))

/-- A host buffer write changes the one element it names and nothing else, STATUS and CMD included; in the FAULT state it
has no effect (43_host_ops.md R155). -/
def Obligations.HostWritesOneElement : Prop :=
  ∀ (s : State) (rest : List HostOp) (i : BufIndex),
    let frame (t : State) : Prop :=
      t.cmd = s.cmd ∧ t.status = s.status ∧ t.omin = s.omin ∧ t.omax = s.omax ∧ t.rom = s.rom ∧
      t.variant = s.variant ∧ t.draw = s.draw ∧ t.ops = rest ∧ t.ci = s.ci + 1 ∧ t.reply = none
    (∀ v : S16, s.ops = .writeCbuf i v :: rest → ∃ t, step s = .next t ∧ frame t ∧
      (∀ j, t.readCbuf j = if j = i.toNat ∧ s.status.getLsbD 1 = false then v.toInt else s.readCbuf j) ∧
      (∀ j, t.readTbuf j = s.readTbuf j) ∧ (∀ j, t.readRbuf j = s.readRbuf j)) ∧
    (∀ v : S32, s.ops = .writeTbuf i v :: rest → ∃ t, step s = .next t ∧ frame t ∧
      (∀ j, t.readTbuf j = if j = i.toNat ∧ s.status.getLsbD 1 = false then v.toInt else s.readTbuf j) ∧
      (∀ j, t.readCbuf j = s.readCbuf j) ∧ (∀ j, t.readRbuf j = s.readRbuf j)) ∧
    (∀ v : S16, s.ops = .writeRbuf i v :: rest → ∃ t, step s = .next t ∧ frame t ∧
      (∀ j, t.readRbuf j = if j = i.toNat ∧ s.status.getLsbD 1 = false then v.toInt else s.readRbuf j) ∧
      (∀ j, t.readCbuf j = s.readCbuf j) ∧ (∀ j, t.readTbuf j = s.readTbuf j))

/-- A host write of OMIN or OMAX takes any word, without a check, and changes nothing else; in the FAULT state it has no
effect; a write of STATUS has none in any state (43_host_ops.md R157). -/
def Obligations.HostWritesTheRange : Prop :=
  ∀ (s : State) (rest : List HostOp) (w : Word),
    let u : State := { s with ops := rest, ci := s.ci + 1, reply := none }
    (s.ops = .writeReg .omin w :: rest →
      step s = .next { u with omin := if s.status.getLsbD 1 = true then s.omin else w }) ∧
    (s.ops = .writeReg .omax w :: rest →
      step s = .next { u with omax := if s.status.getLsbD 1 = true then s.omax else w }) ∧
    (s.ops = .writeReg .status w :: rest → step s = .next u)

/-- Every step completes: every host operation and every command answers a next state (70_reset_and_hazards.md R185,
43_host_ops.md section 1). That a step with no operation waiting answers one too is the model's choice: log entry 1. -/
def Obligations.StepAlwaysCompletes : Prop :=
  ∀ s : State, ∃ t, step s = .next t

/-- The command index starts at 0 and increases by 1 after each host operation, whether or not it faulted or was ignored
(10_state.md R37); with no operation waiting the engine does nothing (10_state.md R20, log entry 1). -/
def Obligations.CommandIndexCounts : Prop :=
  State.reset.ci = 0 ∧
  (∀ (s t : State) (op : HostOp) (rest : List HostOp), s.ops = op :: rest → step s = .next t →
    t.ci = s.ci + 1 ∧ t.ops = rest) ∧
  ∀ s : State, s.ops = [] → step s = .next s

/-! ### Faults -/

/-- Fault entry writes STATUS and nothing else (60_exceptions.md R163). -/
def Obligations.FaultEntryWritesOnlyStatus : Prop :=
  ∀ (s : State) (c : FaultCause), FaultStatus c.code.toNat s.status (s.raiseFault c).status ∧
    s.raiseFault c = { s with status := (s.raiseFault c).status } ∧
    FaultCause.code .illegalCmd = 1 ∧ FaultCause.code .badSize = 2 ∧
    FaultCause.code .badLine = 3 ∧ FaultCause.code .badRange = 4

/-- A step that enters the FAULT state leaves every element of every buffer (60_exceptions.md R164). -/
def Obligations.FaultingCommandWritesNoBuffer : Prop :=
  ∀ s t : State, step s = .next t → s.status.getLsbD 1 = false → t.status.getLsbD 1 = true →
    ∀ i, t.readCbuf i = s.readCbuf i ∧ t.readTbuf i = s.readTbuf i ∧ t.readRbuf i = s.readRbuf i

/-- Which operand faults an identified command can raise, and when: BAD_LINE for an illegal LINE, then BAD_RANGE for a command
with a horizontal step when OMIN > OMAX; nothing but STATUS is written (30_encoding.md R74, 41_pass_ops.md R134,
42_itx2d_ops.md R151, 10_state.md R30). -/
def Obligations.OperandFaults : Prop :=
  ∀ (i : Instr) (s : State),
    let legal : Prop :=
      1 ≤ i.line.toNat ∧ i.line.toNat ≤ 64 ∧ (i.vertical = true → i.horizontal = true → i.line.toNat = i.size)
    (¬legal → ∃ t, exec i s = .next t ∧ FaultStatus 3 s.status t.status ∧ s.SameBut t 0 0) ∧
    (legal → i.horizontal = true → s.omax.toInt < s.omin.toInt →
      ∃ t, exec i s = .next t ∧ FaultStatus 4 s.status t.status ∧ s.SameBut t 0 0) ∧
    (legal → (i.horizontal = true → s.omin.toInt ≤ s.omax.toInt) →
      ∃ t, exec i s = .next t ∧ DoneStatus s.status t.status)

/-! ### What each command computes: every instruction completes -/

/-- `ITXV.2` (41_pass_ops.md R120): two lines' elements give their sum and difference. -/
def Obligations.VerticalTwoTapResult : Prop :=
  ∀ (s : State) (shift : Shift) (line : Line), 1 ≤ line.toNat → line.toNat ≤ 64 →
    ∃ t, exec (.itxv2 shift line) s = .next t ∧ DoneStatus s.status t.status ∧
      s.SameBut t (2 * line.toNat) 0 ∧
      ∀ l < line.toNat,
        t.readTbuf (2 * l) = clamp32 (s.readCbuf l + s.readCbuf (line.toNat + l)) ∧
        t.readTbuf (2 * l + 1) = clamp32 (s.readCbuf l - s.readCbuf (line.toNat + l))

/-- `ITXV.4`, `ITXV.8`, `ITXV.16`, `ITXV.32`, `ITXV.64` (R121 to R125): the product with the ROM's table, clamped, written
transposed; any SHIFT, any OMIN and OMAX; and `ITXV.2` in the same form. Together they are the function `PASSV` of R132. -/
def Obligations.VerticalTableResult : Prop :=
  VerticalResult 4 (fun r => tableEntry r.tm4) .itxv4 ∧ VerticalResult 8 (fun r => tableEntry r.tm8) .itxv8 ∧
  VerticalResult 16 (fun r => tableEntry r.tm16) .itxv16 ∧ VerticalResult 32 (fun r => tableEntry r.tm32) .itxv32 ∧
  VerticalResult 64 (fun r => tableEntry r.tm64) .itxv64 ∧ VerticalResult 2 twoTap .itxv2

/-- `ITXH.2` (R126): sum and difference, then the horizontal output stage. -/
def Obligations.HorizontalTwoTapResult : Prop :=
  ∀ (s : State) (shift : Shift) (line : Line), 1 ≤ line.toNat → line.toNat ≤ 64 → s.omin.toInt ≤ s.omax.toInt →
    ∃ t, exec (.itxh2 shift line) s = .next t ∧ DoneStatus s.status t.status ∧
      s.SameBut t 0 (2 * line.toNat) ∧
      ∀ l < line.toNat,
        t.readRbuf (2 * l) =
          hout (s.readTbuf l + s.readTbuf (line.toNat + l)) shift.toNat s.omin.toInt s.omax.toInt ∧
        t.readRbuf (2 * l + 1) =
          hout (s.readTbuf l - s.readTbuf (line.toNat + l)) shift.toNat s.omin.toInt s.omax.toInt

/-- `ITXH.4`, `ITXH.8`, `ITXH.16`, `ITXH.32`, `ITXH.64` (R127 to R131): the product with the ROM's table, then the horizontal
output stage, written transposed; and `ITXH.2` in the same form. Together they are the function `PASSH` of R133. -/
def Obligations.HorizontalTableResult : Prop :=
  HorizontalResult 4 (fun r => tableEntry r.tm4) .itxh4 ∧ HorizontalResult 8 (fun r => tableEntry r.tm8) .itxh8 ∧
  HorizontalResult 16 (fun r => tableEntry r.tm16) .itxh16 ∧ HorizontalResult 32 (fun r => tableEntry r.tm32) .itxh32 ∧
  HorizontalResult 64 (fun r => tableEntry r.tm64) .itxh64 ∧ HorizontalResult 2 twoTap .itxh2

/-- `ITX.2` (42_itx2d_ops.md R145), element by element; no 32-bit clamp fires. -/
def Obligations.TwoDTwoTapResult : Prop :=
  ∀ (s : State) (shift : Shift) (line : Line), line.toNat = 2 → s.omin.toInt ≤ s.omax.toInt →
    let a := s.readCbuf 0
    let b := s.readCbuf 1
    let c := s.readCbuf 2
    let d := s.readCbuf 3
    let narrow (v : Int) := hout v shift.toNat s.omin.toInt s.omax.toInt
    ∃ t, exec (.itx2 shift line) s = .next t ∧ DoneStatus s.status t.status ∧ s.SameBut t 4 4 ∧
      t.readTbuf 0 = a + c ∧ t.readTbuf 1 = a - c ∧ t.readTbuf 2 = b + d ∧ t.readTbuf 3 = b - d ∧
      t.readRbuf 0 = narrow (a + c + b + d) ∧ t.readRbuf 1 = narrow (a + c - b - d) ∧
      t.readRbuf 2 = narrow (a - c + b - d) ∧ t.readRbuf 3 = narrow (a - c - b + d)

/-- `ITX.4`, `ITX.8`, `ITX.16`, `ITX.32`, `ITX.64` (R146 to R150) by the closed form of R142: the vertical result V stored
transposed in TBUF, and the residual block row-major in RBUF; and `ITX.2` by the same form, its two taps being the product
with the matrix of rows (1, 1) and (1, -1). -/
def Obligations.TwoDClosedForm : Prop :=
  TwoDResult 4 (fun r => tableEntry r.tm4) .itx4 ∧ TwoDResult 8 (fun r => tableEntry r.tm8) .itx8 ∧
  TwoDResult 16 (fun r => tableEntry r.tm16) .itx16 ∧ TwoDResult 32 (fun r => tableEntry r.tm32) .itx32 ∧
  TwoDResult 64 (fun r => tableEntry r.tm64) .itx64 ∧
  TwoDResult 2 twoTap .itx2

/-! ### The 2-D transform -/

/-- The guarantee of R144: for every size, each output is the exact separable product, rounded, shifted, clamped to the output
range and saturated, wherever the product fits 32 bits. -/
def Obligations.TwoDIsTheSeparableProduct : Prop :=
  ∀ (i : Instr) (s : State), i.vertical = true → i.horizontal = true → i.line.toNat = i.size →
    s.omin.toInt ≤ s.omax.toInt →
    ∃ t, exec i s = .next t ∧ ∀ y < i.size, ∀ x < i.size,
      let m : Int := ∑ r ∈ Finset.range i.size, ∑ c ∈ Finset.range i.size,
        basis s.rom i.size r y * s.readCbuf (r * i.size + c) * basis s.rom i.size c x
      m ≤ 2147483647 → -2147483648 ≤ m →
      t.readRbuf (y * i.size + x) =
        sat16 (clamp (asr (m + addOf i.shift.toNat) i.shift.toNat) s.omin.toInt s.omax.toInt)

/-- `ITX.n` has exactly the effect of `ITXV.n` then `ITXH.n` with LINE = n on the buffers; the only differences are that the
pair leaves CMD holding the second word, and that a range fault stops the pair after the vertical pass (R152). -/
def Obligations.TwoDIsVerticalThenHorizontal : Prop :=
  ∀ (s : State) (i j k : Instr),
    i.vertical = true → i.horizontal = true → j.horizontal = false → k.vertical = false →
    j.size = i.size → k.size = i.size →
    i.line.toNat = i.size → j.line.toNat = i.size → k.line.toNat = i.size → k.shift = i.shift →
    s.status.getLsbD 1 = false →
    let one : State := { s with ops := [.writeReg .cmd (encode i)] }
    let pair : State := { s with ops := [.writeReg .cmd (encode j), .writeReg .cmd (encode k)] }
    ∃ t m u, step one = .next t ∧ step pair = .next m ∧ step m = .next u ∧
      t.cmd = encode i ∧ u.cmd = encode k ∧
      (s.omin.toInt ≤ s.omax.toInt →
        t.cbuf = u.cbuf ∧ t.tbuf = u.tbuf ∧ t.rbuf = u.rbuf ∧ t.status = u.status ∧
        t.omin = u.omin ∧ t.omax = u.omax ∧ t.rom = u.rom ∧ DoneStatus s.status u.status) ∧
      (s.omax.toInt < s.omin.toInt →
        FaultStatus 4 s.status t.status ∧ t.cbuf = s.cbuf ∧ t.tbuf = s.tbuf ∧ t.rbuf = s.rbuf ∧
        DoneStatus s.status m.status ∧ FaultStatus 4 s.status u.status ∧
        u.cbuf = s.cbuf ∧ u.tbuf = m.tbuf ∧ u.rbuf = s.rbuf ∧
        ∀ c < i.size, ∀ y < i.size, m.readTbuf (c * i.size + y) =
          vout (transform s.rom i.size (fun r => s.readCbuf (r * i.size + c)) y))

/-- A block of H rows and W columns: `ITXV.H line=W` then `ITXH.W line=H` yields its H × W residual block row-major in RBUF
(70_reset_and_hazards.md R184 item 4). -/
def Obligations.RectangularBlockFromTwoPasses : Prop :=
  ∀ (s : State) (i j : Instr), i.horizontal = false → j.vertical = false →
    i.line.toNat = j.size → j.line.toNat = i.size → s.omin.toInt ≤ s.omax.toInt →
    ∃ t u, exec i s = .next t ∧ exec j t = .next u ∧
      ∀ y < i.size, ∀ x < j.size,
        u.readRbuf (y * j.size + x) =
          hout (∑ c ∈ Finset.range j.size, basis s.rom j.size c x *
              ∑ r ∈ Finset.range i.size, basis s.rom i.size r y * s.readCbuf (r * j.size + c))
            j.shift.toNat s.omin.toInt s.omax.toInt

/-- The vertical clamp never changes a value: every TBUF element a vertical step writes is the exact sum, and lies within
2^28 of zero (40_kernel.md R100). -/
def Obligations.VerticalClampNeverActs : Prop :=
  ∀ (i : Instr) (s : State), i.vertical = true → i.wellFormed = true →
    (i.horizontal = true → s.omin.toInt ≤ s.omax.toInt) →
    ∃ t, exec i s = .next t ∧ ∀ l < i.line.toNat, ∀ k < i.size,
      t.readTbuf (l * i.size + k) =
        ∑ j ∈ Finset.range i.size, basis s.rom i.size j k * s.readCbuf (j * i.line.toNat + l) ∧
      -(2 ^ 28) ≤ t.readTbuf (l * i.size + k) ∧ t.readTbuf (l * i.size + k) ≤ 2 ^ 28

/-- A block whose only non-zero coefficient is C[r0][c0] gives the outer product of two basis rows (42_itx2d_ops.md R154 c). -/
def Obligations.SingleCoefficientBlock : Prop :=
  ∀ (i : Instr) (s : State) (r₀ c₀ : Nat), i.vertical = true → i.horizontal = true → i.line.toNat = i.size →
    s.omin.toInt ≤ s.omax.toInt → r₀ < i.size → c₀ < i.size →
    (∀ e < i.size * i.size, e ≠ r₀ * i.size + c₀ → s.readCbuf e = 0) →
    ∃ t, exec i s = .next t ∧ ∀ y < i.size, ∀ x < i.size,
      t.readRbuf (y * i.size + x) =
        hout (basis s.rom i.size c₀ x * basis s.rom i.size r₀ y * s.readCbuf (r₀ * i.size + c₀))
          i.shift.toNat s.omin.toInt s.omax.toInt

/-! ### Properties of every command -/

/-- What a command leaves unchanged: everything but STATUS and the region its row writes, TBUF[0 .. N*L-1] for a vertical step
and RBUF[0 .. N*L-1] for a horizontal one; CBUF is never written; of STATUS only DONE, or DONE, FAULT and CAUSE
(20_memory.md R56, R57; 10_state.md R31). -/
def Obligations.CommandFrame : Prop :=
  ∀ (i : Instr) (s t : State), exec i s = .next t →
    s.SameBut t (if i.vertical then i.size * i.line.toNat else 0) (if i.horizontal then i.size * i.line.toNat else 0) ∧
    (DoneStatus s.status t.status ∨ FaultStatus 3 s.status t.status ∨ FaultStatus 4 s.status t.status)

/-- Every element a legal command reads or writes is inside its buffer (20_memory.md R58). -/
def Obligations.RegionInsideTheBuffer : Prop :=
  ∀ i : Instr, i.wellFormed = true → ∀ l < i.line.toNat, ∀ j < i.size,
    j * i.line.toNat + l ≤ 4095 ∧ l * i.size + j ≤ 4095

/-- `ITXV.n` ignores SHIFT: any value gives the same result (30_encoding.md R73). -/
def Obligations.ShiftIgnoredByVertical : Prop :=
  ∀ (s : State) (a b : Shift) (line : Line),
    exec (.itxv2 a line) s = exec (.itxv2 b line) s ∧ exec (.itxv4 a line) s = exec (.itxv4 b line) s ∧
    exec (.itxv8 a line) s = exec (.itxv8 b line) s ∧ exec (.itxv16 a line) s = exec (.itxv16 b line) s ∧
    exec (.itxv32 a line) s = exec (.itxv32 b line) s ∧ exec (.itxv64 a line) s = exec (.itxv64 b line) s

/-- The variant has no effect on any architectural result: a step under another variant gives the same next state but for the
variant itself, which Reset samples again and every other step keeps (40_kernel.md R110, 10_state.md R34). -/
def Obligations.VariantHasNoEffect : Prop :=
  ∀ (s : State) (v : Variant), ∃ t u, step s = .next t ∧ step { s with variant := v } = .next u ∧
    u = { t with variant := u.variant } ∧
    ((∃ rest, s.ops = .reset :: rest) → u.variant = Config.variant) ∧
    ((¬∃ rest, s.ops = .reset :: rest) → u.variant = v)

/-- The result of a command is a function of the word, OMIN, OMAX, the ROM and the elements of its read set: two states that
agree on these get the same elements in the write set, whatever STATUS was in either; and outside the FAULT state they get the
same STATUS, whatever DONE was, given that CAUSE and the reserved bits agree, as they do in every state of a run, where all of
them are 0 while FAULT is 0 (40_kernel.md R107, 10_state.md R31, R35). -/
def Obligations.ReadSetDeterminesResult : Prop :=
  ∀ (i : Instr) (s s' : State), s'.omin = s.omin → s'.omax = s.omax → s'.rom = s.rom →
    (i.vertical = true → ∀ e < i.size * i.line.toNat, s'.readCbuf e = s.readCbuf e) →
    (i.vertical = false → ∀ e < i.size * i.line.toNat, s'.readTbuf e = s.readTbuf e) →
    ∃ t t', exec i s = .next t ∧ exec i s' = .next t' ∧
      (s.status.getLsbD 1 = false → s'.status.getLsbD 1 = false →
        (∀ k, 2 ≤ k → s'.status.getLsbD k = s.status.getLsbD k) → t'.status = t.status) ∧
      (i.wellFormed = true → (i.horizontal = true → s.omin.toInt ≤ s.omax.toInt) →
        (i.vertical = true → ∀ e < i.size * i.line.toNat, t'.readTbuf e = t.readTbuf e) ∧
        (i.horizontal = true → ∀ e < i.size * i.line.toNat, t'.readRbuf e = t.readRbuf e))

/-- Lines are lanes: transform `l` of a pass with LINE = L computes what the single transform of a pass with LINE = 1 computes
on its column (40_kernel.md R114, 41_pass_ops.md R135 e). -/
def Obligations.LinesAreIndependent : Prop :=
  ∀ (i j : Instr) (s s' : State) (l : Nat),
    j.size = i.size → j.shift = i.shift → j.line.toNat = 1 → i.line.toNat ≤ 64 → l < i.line.toNat →
    s'.rom = s.rom → s'.omin = s.omin → s'.omax = s.omax →
    ∃ t t', exec i s = .next t ∧ exec j s' = .next t' ∧
      (i.horizontal = false → j.horizontal = false →
        (∀ e < i.size, s'.readCbuf e = s.readCbuf (e * i.line.toNat + l)) →
        ∀ k < i.size, t.readTbuf (l * i.size + k) = t'.readTbuf k) ∧
      (i.vertical = false → j.vertical = false → s.omin.toInt ≤ s.omax.toInt →
        (∀ e < i.size, s'.readTbuf e = s.readTbuf (e * i.line.toNat + l)) →
        ∀ k < i.size, t.readRbuf (l * i.size + k) = t'.readRbuf k)

/-- Zero in, zero out (40_kernel.md R106): of the functions, and of every legal command when the output range contains 0. -/
def Obligations.ZeroInZeroOut : Prop :=
  (∀ (b : Nat → Nat → Int) (n k : Nat), kernel b n (fun _ => 0) k = 0 ∧ kernel2 (fun _ => 0) k = 0) ∧
  vout 0 = 0 ∧
  (∀ (sh : Nat) (lo hi : Int), sh ≤ 31 → lo ≤ hi →
    hout 0 sh lo hi = sat16 (clamp 0 lo hi) ∧ (hout 0 sh lo hi = 0 ↔ lo ≤ 0 ∧ 0 ≤ hi)) ∧
  ∀ (i : Instr) (s : State), i.wellFormed = true →
    (i.horizontal = true → s.omin.toInt ≤ 0 ∧ 0 ≤ s.omax.toInt) →
    (i.vertical = true → ∀ e < i.size * i.line.toNat, s.readCbuf e = 0) →
    (i.vertical = false → ∀ e < i.size * i.line.toNat, s.readTbuf e = 0) →
    ∃ t, exec i s = .next t ∧
      (i.vertical = true → ∀ e < i.size * i.line.toNat, t.readTbuf e = 0) ∧
      (i.horizontal = true → ∀ e < i.size * i.line.toNat, t.readRbuf e = 0)

/-- The ROM is never mutated: no step changes it (10_state.md R21, R41). -/
def Obligations.RomNeverChanges : Prop :=
  ∀ s t : State, step s = .next t → t.rom = s.rom

/-- Only a write of CMD and Reset write STATUS or CMD, and only a write of CMD enters the FAULT state (10_state.md R38,
43_host_ops.md R155 to R158). -/
def Obligations.OnlyCommandsWriteStatus : Prop :=
  ∀ (s t : State) (op : HostOp) (rest : List HostOp), s.ops = op :: rest → step s = .next t →
    ((∀ w, op ≠ .writeReg .cmd w) → op ≠ .reset → t.status = s.status ∧ t.cmd = s.cmd) ∧
    (s.status.getLsbD 1 = false → t.status.getLsbD 1 = true → ∃ w, op = .writeReg .cmd w ∧ t.cmd = w)

/-! ### The kernel -/

/-- Equivalence (40_kernel.md R95): for a table that satisfies SYM the partial butterfly computes the matrix product, for
every size and every input. -/
def Obligations.ButterflyEqualsMatrixProduct : Prop :=
  ∀ (b : Nat → Nat → Int) (m : Nat), TableSym b m → ∀ (x : Nat → Int), ∀ k < 2 ^ m,
    kernelPB b m x k = kernel b (2 ^ m) x k

/-- The size-2 base butterfly is a plain sum and difference of the two products (40_kernel.md R94). -/
def Obligations.BaseButterflyIsSumAndDifference : Prop :=
  ∀ (b : Nat → Nat → Int) (x : Nat → Int) (half : Nat),
    butterfly b x 1 half 0 = b 0 0 * x 0 + b half 0 * x half ∧
    butterfly b x 1 half 1 = b 0 0 * x 0 - b half 0 * x half

/-- The bounds of 40_kernel.md R97, row by row of its table: products and sums on `s16` inputs, on `s32` inputs, on inputs a
vertical step wrote, of the base case, and of the rounding sum. -/
def Obligations.KernelBounds : Prop :=
  (∀ (r : Rom) (n j k : Nat) (x : Int),
    (-(2 ^ 15) ≤ x → x < 2 ^ 15 → |romEntry r n j k * x| ≤ 2 ^ 22) ∧
    (-(2 ^ 31) ≤ x → x < 2 ^ 31 → |romEntry r n j k * x| ≤ 2 ^ 38)) ∧
  (∀ (r : Rom) (n k : Nat) (x : Nat → Int), (∀ j < n, -(2 ^ 15) ≤ x j ∧ x j < 2 ^ 15) →
    |kernel (romEntry r n) n x k| ≤ n * 2 ^ 22) ∧
  (∀ (r : Rom) (n k : Nat) (x : Nat → Int), (∀ j < n, -(2 ^ 31) ≤ x j ∧ x j < 2 ^ 31) →
    |kernel (romEntry r n) n x k| ≤ n * 2 ^ 38) ∧
  (∀ (r : Rom) (n k : Nat) (x : Nat → Int), (∀ j < n, |x j| ≤ n * 2 ^ 22) →
    |kernel (romEntry r n) n x k| ≤ n * 128 * n * 2 ^ 22) ∧
  (∀ (k : Nat) (x : Nat → Int), (∀ j < 2, -(2 ^ 31) ≤ x j ∧ x j < 2 ^ 31) → |kernel2 x k| ≤ 2 ^ 32) ∧
  ∀ (v : Int) (s : Nat), s ≤ 31 → clamp32 v + addOf s < 2 ^ 31 + 2 ^ 30

/-- The three readings of the horizontal 32-bit clamp agree in range; and the examples of where they do not (R102). -/
def Obligations.ClampReadingsAgreeInRange : Prop :=
  (∀ (v : Int) (s : Nat), (-2147483648 : Int) ≤ v → v + addOf s ≤ 2147483647 →
    roundShift .none v s = roundShift .afterAccumulation v s ∧
    roundShift .afterAdd v s = roundShift .afterAccumulation v s) ∧
  (roundShift .none 4294967294 20 = 4096 ∧ roundShift .afterAccumulation 4294967294 20 = 2048 ∧
    roundShift .afterAdd 4294967294 20 = 2047) ∧
  (roundShift .none 2147483647 31 = 1 ∧ roundShift .afterAccumulation 2147483647 31 = 1 ∧
    roundShift .afterAdd 2147483647 31 = 0)

/-- Rounding is to the nearest, ties toward plus infinity; a shift of 0 adds and shifts nothing (R103). -/
def Obligations.RoundingNearestTiesUp : Prop :=
  (∀ (v : Int) (s : Nat), 0 < s → asr (v + 2 ^ (s - 1)) s = ⌊(v : ℚ) / 2 ^ s + 1 / 2⌋) ∧
  (∀ s : Nat, 0 < s → addOf s = 2 ^ (s - 1)) ∧
  ∀ v : Int, asr (v + addOf 0) 0 = v

/-- The horizontal output stage as one expression of maxima, minima and a floor division (R101). -/
def Obligations.HorizontalStageFormula : Prop :=
  ∀ (v : Int) (s : Nat) (lo hi : Int), lo ≤ hi →
    hout v s lo hi =
      max (-32768) (min 32767 (max lo (min hi
        ((max (-2147483648) (min 2147483647 v) + if s = 0 then 0 else 2 ^ (s - 1)) / 2 ^ s))))

/-- No value wraps (R104): a stored output is the value the stage gave; and the effective range of the horizontal stage. -/
def Obligations.StoredValuesNeverWrap : Prop :=
  (∀ y : Int, (BitVec.ofInt 32 (vout y)).toInt = vout y) ∧
  ∀ (v : Int) (s : Nat) (lo hi : Int), lo ≤ hi →
    (BitVec.ofInt 16 (hout v s lo hi)).toInt = hout v s lo hi ∧
    (-32768 ≤ lo → hi ≤ 32767 → hout v s lo hi = clamp (roundShift Config.hclamp v s) lo hi) ∧
    (max lo (-32768) ≤ min hi 32767 →
      max lo (-32768) ≤ hout v s lo hi ∧ hout v s lo hi ≤ min hi 32767) ∧
    (hi < -32768 → hout v s lo hi = sat16 hi) ∧ (32767 < lo → hout v s lo hi = sat16 lo)

/-! ### Invariants -/

/-- The machine after reset satisfies the invariant: the buffers are in canonical form, which is the model's own (log entry 3),
and STATUS tells the truth about CMD (10_state.md R31, R39). -/
def Obligations.ResetHasTheInvariant : Prop := State.reset.Inv

/-- Every step keeps the invariant, from every state that has it: the buffers stay canonical, and STATUS stays one of its six
values and tells the truth about the word in CMD (10_state.md R28, R31; 60_exceptions.md R160, R161, R165). The canonical form is
the model's own: log entry 3. -/
def Obligations.StepKeepsTheInvariant : Prop :=
  ∀ s t : State, s.Inv → step s = .next t → t.Inv

/-- Under the invariant STATUS is one of the six values of 93_implementation_defined.md U8, so its reserved bits read as 0, and
in the FAULT state CMD holds a word whose first failing check is the one CAUSE names (10_state.md R28, R31; 60_exceptions.md
R160, R161). -/
def Obligations.StatusTakesSixValues : Prop :=
  ∀ s : State, s.Inv →
    s.status ∈ [0x00#32, 0x01#32, 0x12#32, 0x22#32, 0x32#32, 0x42#32] ∧
    (s.status = 0x01#32 → ∃ i, decode s.cmd = .ok i ∧ i.wellFormed = true) ∧
    (s.status = 0x12#32 → decode s.cmd = .error .illegalCmd) ∧
    (s.status = 0x22#32 → decode s.cmd = .error .badSize) ∧
    (s.status = 0x32#32 → ∃ i, decode s.cmd = .ok i ∧ i.wellFormed = false) ∧
    (s.status = 0x42#32 → ∃ i, decode s.cmd = .ok i ∧ i.wellFormed = true ∧ i.horizontal = true ∧
      s.omax.toInt < s.omin.toInt)
end

