-- ==== Sys2Proof/Laws/Decode.lean ====
section
/-! SUPPORT. The format CMD32 read back field by field, and the accessors of the command a word selects. -/

namespace Sys2Proof

variable (ph pv : Bool) (m : BitVec 3) (shift : Shift) (line : Line)

theorem encodeFields_bit (k : Nat) :
    (encodeFields ph pv m shift line).getLsbD k =
      if k < 3 then m.getLsbD k
      else if k = 3 then pv
      else if k = 4 then ph
      else if k < 8 then false
      else if k < 13 then shift.getLsbD (k - 8)
      else if k < 16 then false
      else if k < 23 then line.getLsbD (k - 16)
      else false := by
  by_cases hk : k < 32
  · interval_cases k <;> simp only [encodeFields, lowByte, BitVec.getLsbD_append] <;> simp
  · rw [BitVec.getLsbD_of_ge _ _ (Nat.le_of_not_lt hk)]
    repeat' rw [if_neg (by omega)]

@[simp] theorem encodeFields_log2n : log2nField (encodeFields ph pv m shift line) = m := by
  unfold log2nField
  ext i hi
  simp [encodeFields_bit, hi]

@[simp] theorem encodeFields_pv : pvField (encodeFields ph pv m shift line) = pv := by
  rw [pvField, encodeFields_bit]; rfl

@[simp] theorem encodeFields_ph : phField (encodeFields ph pv m shift line) = ph := by
  rw [phField, encodeFields_bit]; rfl

@[simp] theorem encodeFields_shift : shiftField (encodeFields ph pv m shift line) = shift := by
  unfold shiftField
  ext i hi
  have : i = 0 ∨ i = 1 ∨ i = 2 ∨ i = 3 ∨ i = 4 := by omega
  rcases this with rfl | rfl | rfl | rfl | rfl <;> simp only [BitVec.getElem_extractLsb', encodeFields_bit] <;> rfl

@[simp] theorem encodeFields_line : lineField (encodeFields ph pv m shift line) = line := by
  unfold lineField
  ext i hi
  have : i = 0 ∨ i = 1 ∨ i = 2 ∨ i = 3 ∨ i = 4 ∨ i = 5 ∨ i = 6 := by omega
  rcases this with rfl | rfl | rfl | rfl | rfl | rfl | rfl <;> simp only [BitVec.getElem_extractLsb', encodeFields_bit] <;> rfl

@[simp] theorem encodeFields_reserved : reservedClear (encodeFields ph pv m shift line) = true := by
  simp only [reservedClear, Bool.and_eq_true, beq_iff_eq]
  refine ⟨⟨?_, ?_⟩, ?_⟩ <;> ext i hi <;>
    simp only [BitVec.getElem_extractLsb', encodeFields_bit] <;>
    (repeat' first | rw [if_neg (by omega)] | rw [if_pos (by omega)]) <;> simp

end Sys2Proof
end

