-- ==== Sys2Proof/Laws/Memory.lean ====
section
/-! SUPPORT. The laws of a buffer: what a read gives after a write or after the store of a region, and that every
operation keeps the canonical form. -/

namespace Sys2Proof.Machine

variable {w : Nat}

@[simp] theorem lookup_nil (i : Nat) : Memory.lookup ([] : Memory w) i = none := rfl

@[simp] theorem read_nil (free : Nat → BitVec w) (i : Nat) : Memory.read free [] i = free i := rfl

theorem lookup_write (m : Memory w) (i : Nat) (v : BitVec w) (j : Nat) :
    Memory.lookup (Memory.write m i v) j = if j = i then some v else Memory.lookup m j := by
  induction m with
  | nil => simp only [Memory.write, Memory.lookup, eq_comm]
  | cons c rest ih =>
    obtain ⟨a, u⟩ := c
    simp only [Memory.write]
    split
    · simp only [Memory.lookup, eq_comm]
    · split
      · subst_vars; simp only [Memory.lookup]; split <;> simp_all [eq_comm]
      · simp only [Memory.lookup, ih]; split <;> split <;> simp_all

/-- A read after a write (20_memory.md R63). -/
theorem read_write (free : Nat → BitVec w) (m : Memory w) (i : Nat) (v : BitVec w) (j : Nat) :
    Memory.read free (Memory.write m i v) j = if j = i then v else Memory.read free m j := by
  unfold Memory.read; rw [lookup_write]; split <;> rfl

theorem lookup_append (m m' : Memory w) (i : Nat) :
    Memory.lookup (m ++ m') i = (Memory.lookup m i).orElse fun _ => Memory.lookup m' i := by
  induction m with
  | nil => rfl
  | cons c rest ih =>
    obtain ⟨a, u⟩ := c
    simp only [List.cons_append, Memory.lookup]; split
    · rfl
    · exact ih

theorem lookup_number (b : Nat) (vs : List (BitVec w)) (i : Nat) :
    Memory.lookup (Memory.number b vs) i = if b ≤ i then vs[i - b]? else none := by
  induction vs generalizing b with
  | nil => simp [Memory.number]
  | cons v vs ih =>
    simp only [Memory.number, Memory.lookup, ih]
    rcases Nat.lt_trichotomy b i with h | h | h
    · rw [if_neg (by omega), if_pos (by omega), if_pos (by omega), show i - b = (i - (b + 1)) + 1 by omega]; rfl
    · subst h; simp
    · rw [if_neg (by omega), if_neg (by omega), if_neg (by omega)]

theorem lookup_filter (m : Memory w) (n i : Nat) (h : n ≤ i) :
    Memory.lookup (m.filter fun c => decide (n ≤ c.1)) i = Memory.lookup m i := by
  induction m with
  | nil => rfl
  | cons c rest ih =>
    obtain ⟨a, u⟩ := c
    by_cases ha : n ≤ a
    · rw [List.filter_cons_of_pos (by simpa using ha)]; simp only [Memory.lookup, ih]
    · rw [List.filter_cons_of_neg (by simpa using ha), ih, Memory.lookup, if_neg (by omega)]

/-- Inside the stored region a read gives the stored value. -/
theorem read_storeRegion_lt (free : Nat → BitVec w) (m : Memory w) (vs : List (BitVec w)) {i : Nat} (h : i < vs.length) :
    Memory.read free (Memory.storeRegion m vs) i = vs[i] := by
  simp [Memory.read, Memory.storeRegion, lookup_append, lookup_number, h]

/-- Outside the stored region nothing changes (20_memory.md R57). -/
theorem read_storeRegion_ge (free : Nat → BitVec w) (m : Memory w) (vs : List (BitVec w)) {i : Nat}
    (h : vs.length ≤ i) : Memory.read free (Memory.storeRegion m vs) i = Memory.read free m i := by
  simp [Memory.read, Memory.storeRegion, lookup_append, lookup_number, lookup_filter m _ i h, h]

theorem risingFrom_mono {m : Memory w} {lo lo' : Nat} (h : lo' ≤ lo) (hm : Memory.risingFrom lo m = true) :
    Memory.risingFrom lo' m = true := by
  cases m with
  | nil => rfl
  | cons c rest =>
    obtain ⟨a, u⟩ := c
    simp only [Memory.risingFrom, Bool.and_eq_true, decide_eq_true_eq] at hm ⊢
    exact ⟨⟨by omega, hm.1.2⟩, hm.2⟩

theorem risingFrom_write {m : Memory w} {lo i : Nat} (v : BitVec w) (hm : Memory.risingFrom lo m = true)
    (hlo : lo ≤ i) (hi : i < Config.bufDepth) : Memory.risingFrom lo (Memory.write m i v) = true := by
  induction m generalizing lo with
  | nil => simp [Memory.write, Memory.risingFrom, hlo, hi]
  | cons c rest ih =>
    obtain ⟨a, u⟩ := c
    simp only [Memory.risingFrom, Bool.and_eq_true, decide_eq_true_eq] at hm
    simp only [Memory.write]
    split
    · simp only [Memory.risingFrom, Bool.and_eq_true, decide_eq_true_eq]; refine ⟨⟨hlo, hi⟩, ⟨?_, hm.1.2⟩, hm.2⟩; omega
    · split
      · subst_vars; simp only [Memory.risingFrom, Bool.and_eq_true, decide_eq_true_eq]; exact hm
      · simp only [Memory.risingFrom, Bool.and_eq_true, decide_eq_true_eq]
        exact ⟨hm.1, ih hm.2 (by omega)⟩

/-- A host write keeps the canonical form. -/
theorem wf_write {m : Memory w} {i : Nat} (v : BitVec w) (hm : Memory.wf m = true) (hi : i < Config.bufDepth) :
    Memory.wf (Memory.write m i v) = true := risingFrom_write v hm (Nat.zero_le i) hi

theorem risingFrom_number_append {m : Memory w} {b : Nat} (vs : List (BitVec w))
    (hm : Memory.risingFrom (b + vs.length) m = true) (hb : b + vs.length ≤ Config.bufDepth) :
    Memory.risingFrom b (Memory.number b vs ++ m) = true := by
  induction vs generalizing b with
  | nil => simpa [Memory.number] using hm
  | cons v vs ih =>
    simp only [Memory.number, List.cons_append, Memory.risingFrom, Bool.and_eq_true, decide_eq_true_eq]
    simp only [List.length_cons] at hm hb
    refine ⟨⟨le_refl b, by omega⟩, ih ?_ (by omega)⟩
    rw [show b + 1 + vs.length = b + (vs.length + 1) by omega]; exact hm

theorem risingFrom_filter {m : Memory w} {lo : Nat} (n : Nat) (hm : Memory.risingFrom lo m = true) :
    Memory.risingFrom (max lo n) (m.filter fun c => decide (n ≤ c.1)) = true := by
  induction m generalizing lo with
  | nil => rfl
  | cons c rest ih =>
    obtain ⟨a, u⟩ := c
    simp only [Memory.risingFrom, Bool.and_eq_true, decide_eq_true_eq] at hm
    by_cases ha : n ≤ a
    · rw [List.filter_cons_of_pos (by simpa using ha)]
      simp only [Memory.risingFrom, Bool.and_eq_true, decide_eq_true_eq]
      refine ⟨⟨by omega, hm.1.2⟩, risingFrom_mono (by omega) (ih hm.2)⟩
    · rw [List.filter_cons_of_neg (by simpa using ha)]
      exact risingFrom_mono (by omega) (ih hm.2)

/-- Storing a region inside the buffer keeps the canonical form. -/
theorem wf_storeRegion {m : Memory w} {vs : List (BitVec w)} (hm : Memory.wf m = true)
    (hb : vs.length ≤ Config.bufDepth) : Memory.wf (Memory.storeRegion m vs) = true := by
  refine risingFrom_number_append vs ?_ (by omega)
  rw [Nat.zero_add]
  exact risingFrom_mono (Nat.le_max_right 0 vs.length) (risingFrom_filter vs.length hm)

end Sys2Proof.Machine
end

