-- ==== Sys2Proof/Laws/Numeric.lean ====
section
/-! SUPPORT. The laws of the integer functions: clamps, the narrowing of a clamped value, finite sums, bounds. -/

namespace Sys2Proof.Machine

theorem le_clamp {v lo hi : Int} (h : lo ≤ hi) : lo ≤ clamp v lo hi := by
  unfold clamp; split
  · exact le_refl _
  · split <;> omega

theorem clamp_le {v lo hi : Int} (h : lo ≤ hi) : clamp v lo hi ≤ hi := by
  unfold clamp; split
  · exact h
  · split <;> omega

theorem clamp_of_mem {v lo hi : Int} (h₁ : lo ≤ v) (h₂ : v ≤ hi) : clamp v lo hi = v := by
  unfold clamp; rw [if_neg (by omega), if_neg (by omega)]

theorem clamp32_bounds (v : Int) : -2147483648 ≤ clamp32 v ∧ clamp32 v ≤ 2147483647 :=
  ⟨le_clamp (by decide), clamp_le (by decide)⟩

theorem sat16_bounds (v : Int) : -32768 ≤ sat16 v ∧ sat16 v ≤ 32767 :=
  ⟨le_clamp (by decide), clamp_le (by decide)⟩

theorem clamp32_of_mem {v : Int} (h₁ : -2147483648 ≤ v) (h₂ : v ≤ 2147483647) : clamp32 v = v :=
  clamp_of_mem h₁ h₂

theorem sat16_of_mem {v : Int} (h₁ : -32768 ≤ v) (h₂ : v ≤ 32767) : sat16 v = v := clamp_of_mem h₁ h₂

/-- A clamped value survives its store into an `s32` element (40_kernel.md R104). -/
@[simp] theorem toInt_ofInt_vout (y : Int) : (BitVec.ofInt 32 (vout y)).toInt = vout y := by
  have h := clamp32_bounds y
  exact BitVec.toInt_ofInt_eq_self (by decide) h.1 (by unfold vout; omega)

/-- A saturated value survives its store into an `s16` element (40_kernel.md R104). -/
@[simp] theorem toInt_ofInt_hout (v : Int) (s : Nat) (lo hi : Int) :
    (BitVec.ofInt 16 (hout v s lo hi)).toInt = hout v s lo hi := by
  have h := sat16_bounds (clamp (roundShift Config.hclamp v s) lo hi)
  exact BitVec.toInt_ofInt_eq_self (by decide) h.1 (by unfold hout; omega)

theorem sumBelow_eq_sum (n : Nat) (f : Nat → Int) : sumBelow n f = ∑ j ∈ Finset.range n, f j := by
  induction n with
  | zero => rfl
  | succ n ih => rw [sumBelow, ih, Finset.sum_range_succ]

theorem sumBelow_congr {n : Nat} {f g : Nat → Int} (h : ∀ j < n, f j = g j) : sumBelow n f = sumBelow n g := by
  rw [sumBelow_eq_sum, sumBelow_eq_sum]
  exact Finset.sum_congr rfl fun j hj => h j (Finset.mem_range.mp hj)

theorem kernel_congr {b : Nat → Nat → Int} {n : Nat} {x y : Nat → Int} (h : ∀ j < n, x j = y j) (k : Nat) :
    kernel b n x k = kernel b n y k :=
  sumBelow_congr fun j hj => by rw [h j hj]

theorem kernel2_congr {x y : Nat → Int} (h₀ : x 0 = y 0) (h₁ : x 1 = y 1) (k : Nat) : kernel2 x k = kernel2 y k := by
  simp only [kernel2, h₀, h₁]

/-- A transform reads only its `n` inputs (40_kernel.md R114). -/
theorem transform_congr {r : Rom} {n : Nat} {x y : Nat → Int} (h : ∀ j < n, x j = y j) (k : Nat) :
    transform r n x k = transform r n y k := by
  unfold transform; split
  · exact kernel2_congr (h 0 (by omega)) (h 1 (by omega)) k
  · exact kernel_congr h k

/-- A sum of `n` terms of magnitude at most `c` has magnitude at most `n * c`. -/
theorem abs_sumBelow_le {n : Nat} {f : Nat → Int} {c : Int} (h : ∀ j < n, |f j| ≤ c) : |sumBelow n f| ≤ n * c := by
  induction n with
  | zero => simp [sumBelow]
  | succ n ih =>
    have h₁ := ih fun j hj => h j (by omega)
    have h₂ := h n (by omega)
    have h₃ := abs_add_le (sumBelow n f) (f n)
    rw [sumBelow]; push_cast
    nlinarith

/-- A table entry is an `s8` (10_state.md R21). -/
theorem abs_tableEntry_le {n : Nat} (t : Table n) (j k : Nat) : |tableEntry t j k| ≤ 128 := by
  unfold tableEntry; split
  · rename_i h
    have h₁ := BitVec.le_toInt ((t[j]'h.1)[k]'h.2)
    have h₂ := BitVec.toInt_lt (x := (t[j]'h.1)[k]'h.2)
    rw [abs_le]; constructor <;> norm_num at h₁ h₂ ⊢ <;> omega
  · simp

theorem abs_romEntry_le (r : Rom) (n j k : Nat) : |romEntry r n j k| ≤ 128 := by
  unfold romEntry; split <;> first | exact abs_tableEntry_le _ _ _ | simp

end Sys2Proof.Machine
end

