-- ==== Sys2Proof/Laws/State.lean ====
section
/-! SUPPORT. What each state update does to each field, true by unfolding, so that no later proof opens a record update. -/

namespace Sys2Proof.Machine

variable (s : State)

@[simp] theorem complete_cmd : (s.complete).cmd = s.cmd := rfl
@[simp] theorem complete_status : (s.complete).status = withDone s.status := rfl
@[simp] theorem complete_omin : (s.complete).omin = s.omin := rfl
@[simp] theorem complete_omax : (s.complete).omax = s.omax := rfl
@[simp] theorem complete_cbuf : (s.complete).cbuf = s.cbuf := rfl
@[simp] theorem complete_tbuf : (s.complete).tbuf = s.tbuf := rfl
@[simp] theorem complete_rbuf : (s.complete).rbuf = s.rbuf := rfl
@[simp] theorem complete_rom : (s.complete).rom = s.rom := rfl
@[simp] theorem complete_variant : (s.complete).variant = s.variant := rfl
@[simp] theorem complete_draw : (s.complete).draw = s.draw := rfl
@[simp] theorem complete_ops : (s.complete).ops = s.ops := rfl
@[simp] theorem complete_ci : (s.complete).ci = s.ci := rfl
@[simp] theorem complete_reply : (s.complete).reply = s.reply := rfl

@[simp] theorem raiseFault_cmd (c : FaultCause) : (s.raiseFault c).cmd = s.cmd := rfl
@[simp] theorem raiseFault_status (c : FaultCause) : (s.raiseFault c).status = withFault c s.status := rfl
@[simp] theorem raiseFault_omin (c : FaultCause) : (s.raiseFault c).omin = s.omin := rfl
@[simp] theorem raiseFault_omax (c : FaultCause) : (s.raiseFault c).omax = s.omax := rfl
@[simp] theorem raiseFault_cbuf (c : FaultCause) : (s.raiseFault c).cbuf = s.cbuf := rfl
@[simp] theorem raiseFault_tbuf (c : FaultCause) : (s.raiseFault c).tbuf = s.tbuf := rfl
@[simp] theorem raiseFault_rbuf (c : FaultCause) : (s.raiseFault c).rbuf = s.rbuf := rfl
@[simp] theorem raiseFault_rom (c : FaultCause) : (s.raiseFault c).rom = s.rom := rfl
@[simp] theorem raiseFault_variant (c : FaultCause) : (s.raiseFault c).variant = s.variant := rfl
@[simp] theorem raiseFault_draw (c : FaultCause) : (s.raiseFault c).draw = s.draw := rfl
@[simp] theorem raiseFault_ops (c : FaultCause) : (s.raiseFault c).ops = s.ops := rfl
@[simp] theorem raiseFault_ci (c : FaultCause) : (s.raiseFault c).ci = s.ci := rfl
@[simp] theorem raiseFault_reply (c : FaultCause) : (s.raiseFault c).reply = s.reply := rfl

@[simp] theorem passV_cmd (n l : Nat) : (passV n l s).cmd = s.cmd := rfl
@[simp] theorem passV_status (n l : Nat) : (passV n l s).status = s.status := rfl
@[simp] theorem passV_omin (n l : Nat) : (passV n l s).omin = s.omin := rfl
@[simp] theorem passV_omax (n l : Nat) : (passV n l s).omax = s.omax := rfl
@[simp] theorem passV_cbuf (n l : Nat) : (passV n l s).cbuf = s.cbuf := rfl
@[simp] theorem passV_tbuf (n l : Nat) : (passV n l s).tbuf = Memory.storeRegion s.tbuf ((passOutputs s.rom n l s.readCbuf vout).map (BitVec.ofInt 32)) := rfl
@[simp] theorem passV_rbuf (n l : Nat) : (passV n l s).rbuf = s.rbuf := rfl
@[simp] theorem passV_rom (n l : Nat) : (passV n l s).rom = s.rom := rfl
@[simp] theorem passV_variant (n l : Nat) : (passV n l s).variant = s.variant := rfl
@[simp] theorem passV_draw (n l : Nat) : (passV n l s).draw = s.draw := rfl
@[simp] theorem passV_ops (n l : Nat) : (passV n l s).ops = s.ops := rfl
@[simp] theorem passV_ci (n l : Nat) : (passV n l s).ci = s.ci := rfl
@[simp] theorem passV_reply (n l : Nat) : (passV n l s).reply = s.reply := rfl

@[simp] theorem passH_cmd (n l sh : Nat) (lo hi : Int) : (passH n l sh lo hi s).cmd = s.cmd := rfl
@[simp] theorem passH_status (n l sh : Nat) (lo hi : Int) : (passH n l sh lo hi s).status = s.status := rfl
@[simp] theorem passH_omin (n l sh : Nat) (lo hi : Int) : (passH n l sh lo hi s).omin = s.omin := rfl
@[simp] theorem passH_omax (n l sh : Nat) (lo hi : Int) : (passH n l sh lo hi s).omax = s.omax := rfl
@[simp] theorem passH_cbuf (n l sh : Nat) (lo hi : Int) : (passH n l sh lo hi s).cbuf = s.cbuf := rfl
@[simp] theorem passH_tbuf (n l sh : Nat) (lo hi : Int) : (passH n l sh lo hi s).tbuf = s.tbuf := rfl
@[simp] theorem passH_rbuf (n l sh : Nat) (lo hi : Int) : (passH n l sh lo hi s).rbuf = Memory.storeRegion s.rbuf ((passOutputs s.rom n l s.readTbuf fun v => hout v sh lo hi).map (BitVec.ofInt 16)) := rfl
@[simp] theorem passH_rom (n l sh : Nat) (lo hi : Int) : (passH n l sh lo hi s).rom = s.rom := rfl
@[simp] theorem passH_variant (n l sh : Nat) (lo hi : Int) : (passH n l sh lo hi s).variant = s.variant := rfl
@[simp] theorem passH_draw (n l sh : Nat) (lo hi : Int) : (passH n l sh lo hi s).draw = s.draw := rfl
@[simp] theorem passH_ops (n l sh : Nat) (lo hi : Int) : (passH n l sh lo hi s).ops = s.ops := rfl
@[simp] theorem passH_ci (n l sh : Nat) (lo hi : Int) : (passH n l sh lo hi s).ci = s.ci := rfl
@[simp] theorem passH_reply (n l sh : Nat) (lo hi : Int) : (passH n l sh lo hi s).reply = s.reply := rfl

@[simp] theorem resetFrom_cmd : (s.resetFrom).cmd = 0x00000000#32 := rfl
@[simp] theorem resetFrom_status : (s.resetFrom).status = 0x00000000#32 := rfl
@[simp] theorem resetFrom_omin : (s.resetFrom).omin = 0xFFFF8000#32 := rfl
@[simp] theorem resetFrom_omax : (s.resetFrom).omax = 0x00007FFF#32 := rfl
@[simp] theorem resetFrom_cbuf : (s.resetFrom).cbuf = [] := rfl
@[simp] theorem resetFrom_tbuf : (s.resetFrom).tbuf = [] := rfl
@[simp] theorem resetFrom_rbuf : (s.resetFrom).rbuf = [] := rfl
@[simp] theorem resetFrom_rom : (s.resetFrom).rom = s.rom := rfl
@[simp] theorem resetFrom_variant : (s.resetFrom).variant = Config.variant := rfl
@[simp] theorem resetFrom_draw : (s.resetFrom).draw = s.draw + 1 := rfl
@[simp] theorem resetFrom_ops : (s.resetFrom).ops = s.ops := rfl
@[simp] theorem resetFrom_ci : (s.resetFrom).ci = s.ci := rfl
@[simp] theorem resetFrom_reply : (s.resetFrom).reply = s.reply := rfl

@[simp] theorem issue_cmd (rest : List HostOp) : (s.issue rest).cmd = s.cmd := rfl
@[simp] theorem issue_status (rest : List HostOp) : (s.issue rest).status = s.status := rfl
@[simp] theorem issue_omin (rest : List HostOp) : (s.issue rest).omin = s.omin := rfl
@[simp] theorem issue_omax (rest : List HostOp) : (s.issue rest).omax = s.omax := rfl
@[simp] theorem issue_cbuf (rest : List HostOp) : (s.issue rest).cbuf = s.cbuf := rfl
@[simp] theorem issue_tbuf (rest : List HostOp) : (s.issue rest).tbuf = s.tbuf := rfl
@[simp] theorem issue_rbuf (rest : List HostOp) : (s.issue rest).rbuf = s.rbuf := rfl
@[simp] theorem issue_rom (rest : List HostOp) : (s.issue rest).rom = s.rom := rfl
@[simp] theorem issue_variant (rest : List HostOp) : (s.issue rest).variant = s.variant := rfl
@[simp] theorem issue_draw (rest : List HostOp) : (s.issue rest).draw = s.draw := rfl
@[simp] theorem issue_ops (rest : List HostOp) : (s.issue rest).ops = rest := rfl
@[simp] theorem issue_ci (rest : List HostOp) : (s.issue rest).ci = s.ci + 1 := rfl
@[simp] theorem issue_reply (rest : List HostOp) : (s.issue rest).reply = none := rfl

@[simp] theorem complete_readCbuf (i : Nat) : s.complete.readCbuf i = s.readCbuf i := rfl
@[simp] theorem complete_readTbuf (i : Nat) : s.complete.readTbuf i = s.readTbuf i := rfl
@[simp] theorem complete_readRbuf (i : Nat) : s.complete.readRbuf i = s.readRbuf i := rfl
@[simp] theorem raiseFault_readCbuf (c : FaultCause) (i : Nat) : (s.raiseFault c).readCbuf i = s.readCbuf i := rfl
@[simp] theorem raiseFault_readTbuf (c : FaultCause) (i : Nat) : (s.raiseFault c).readTbuf i = s.readTbuf i := rfl
@[simp] theorem raiseFault_readRbuf (c : FaultCause) (i : Nat) : (s.raiseFault c).readRbuf i = s.readRbuf i := rfl
@[simp] theorem issue_readCbuf (rest : List HostOp) (i : Nat) : (s.issue rest).readCbuf i = s.readCbuf i := rfl
@[simp] theorem issue_readTbuf (rest : List HostOp) (i : Nat) : (s.issue rest).readTbuf i = s.readTbuf i := rfl
@[simp] theorem issue_readRbuf (rest : List HostOp) (i : Nat) : (s.issue rest).readRbuf i = s.readRbuf i := rfl
@[simp] theorem passV_readCbuf (n l i : Nat) : (passV n l s).readCbuf i = s.readCbuf i := rfl
@[simp] theorem passV_readRbuf (n l i : Nat) : (passV n l s).readRbuf i = s.readRbuf i := rfl
@[simp] theorem passH_readCbuf (n l sh : Nat) (lo hi : Int) (i : Nat) :
    (passH n l sh lo hi s).readCbuf i = s.readCbuf i := rfl
@[simp] theorem passH_readTbuf (n l sh : Nat) (lo hi : Int) (i : Nat) :
    (passH n l sh lo hi s).readTbuf i = s.readTbuf i := rfl
@[simp] theorem complete_rangeOk : s.complete.rangeOk = s.rangeOk := rfl
@[simp] theorem passV_rangeOk (n l : Nat) : (passV n l s).rangeOk = s.rangeOk := rfl
@[simp] theorem issue_faulted (rest : List HostOp) : (s.issue rest).faulted = s.faulted := rfl

theorem unlessFaulted_of_faulted {s : State} (t : State) (h : s.faulted = true) : s.unlessFaulted t = s := if_pos h

theorem unlessFaulted_of_not {s : State} (t : State) (h : s.faulted = false) : s.unlessFaulted t = t := by
  simp [State.unlessFaulted, h]

/-- The update that sets CMD leaves what a command reads. -/
@[simp] theorem setCmd_readCbuf (w : Word) (i : Nat) : State.readCbuf { s with cmd := w } i = s.readCbuf i := rfl
@[simp] theorem setCmd_readTbuf (w : Word) (i : Nat) : State.readTbuf { s with cmd := w } i = s.readTbuf i := rfl
@[simp] theorem setCmd_readRbuf (w : Word) (i : Nat) : State.readRbuf { s with cmd := w } i = s.readRbuf i := rfl

end Sys2Proof.Machine
end

