-- ==== Sys2Proof/Laws/Pass.lean ====
section
/-! SUPPORT. Everything a pass does: the element it stores at each index of its write set, and that nothing else changes. -/

namespace Sys2Proof.Machine

theorem length_flatMap_rows {α : Type} {g : Nat → List α} {n : Nat} (hg : ∀ l, (g l).length = n) (m : Nat) :
    ((List.range m).flatMap g).length = m * n := by
  induction m with
  | zero => simp
  | succ m ih => rw [List.range_succ, List.flatMap_append, List.length_append, ih]; simp [hg]; ring

theorem getElem?_flatMap_rows {α : Type} {g : Nat → List α} {n : Nat} (hg : ∀ l, (g l).length = n) {m l k : Nat}
    (hl : l < m) (hk : k < n) : ((List.range m).flatMap g)[l * n + k]? = (g l)[k]? := by
  induction m with
  | zero => omega
  | succ m ih =>
    have hlen := length_flatMap_rows hg m
    rw [List.range_succ, List.flatMap_append]
    by_cases h : l < m
    · have : l * n + k < m * n := by nlinarith
      rw [List.getElem?_append_left (by omega), ih h]
    · obtain rfl : l = m := by omega
      rw [List.getElem?_append_right (by omega), hlen]
      simp

variable (r : Rom) (n L : Nat) (input : Nat → Int) (stage : Int → Int)

@[simp] theorem length_passOutputs : (passOutputs r n L input stage).length = L * n :=
  length_flatMap_rows (fun _ => by simp) L

/-- Output `(l, k)` of a pass is element `l * N + k` (20_memory.md R55). -/
theorem getElem?_passOutputs {l k : Nat} (hl : l < L) (hk : k < n) :
    (passOutputs r n L input stage)[l * n + k]? =
      some (stage (transform r n (fun j => ((List.range n).map fun j => input (j * L + l)).getD j 0) k)) := by
  unfold passOutputs
  rw [getElem?_flatMap_rows (fun _ => by simp) hl hk]
  simp [hk]

variable {n L}

/-- The same, in terms of the input vector the spec names (41_pass_ops.md R132, R133). -/
theorem passOutputs_element {l k : Nat} (hl : l < L) (hk : k < n) :
    (passOutputs r n L input stage)[l * n + k]? = some (stage (transform r n (fun j => input (j * L + l)) k)) := by
  rw [getElem?_passOutputs r n L input stage hl hk]
  congr 2
  refine transform_congr (fun j hj => ?_) k
  simp [List.getD, hj]

/-- Two inputs that agree on the read set give the same outputs (40_kernel.md R107, 20_memory.md R56). -/
theorem passOutputs_congr {input' : Nat → Int} (h : ∀ i < n * L, input i = input' i) :
    passOutputs r n L input stage = passOutputs r n L input' stage := by
  unfold passOutputs
  refine List.flatMap_congr fun l hl => ?_
  have hl := List.mem_range.mp hl
  have : ((List.range n).map fun j => input (j * L + l)) = (List.range n).map fun j => input' (j * L + l) := by
    refine List.map_congr_left fun j hj => h _ ?_
    have hj := List.mem_range.mp hj
    nlinarith
  simp only [this]

variable (s : State)

/-- What the vertical pass stores (41_pass_ops.md R132). -/
theorem passV_readTbuf {l k : Nat} (hl : l < L) (hk : k < n) :
    (passV n L s).readTbuf (l * n + k) = vout (transform s.rom n (fun j => s.readCbuf (j * L + l)) k) := by
  have hlt : l * n + k < L * n := by nlinarith
  have he := passOutputs_element s.rom s.readCbuf vout hl hk
  rw [List.getElem?_eq_some_iff] at he
  obtain ⟨_, he⟩ := he
  simp only [State.readTbuf, passV_tbuf, passV_draw]
  rw [read_storeRegion_lt _ _ _ (by simpa using hlt), List.getElem_map, he, toInt_ofInt_vout]

/-- The vertical pass leaves TBUF beyond its write set (20_memory.md R57). -/
theorem passV_readTbuf_beyond {i : Nat} (h : L * n ≤ i) : (passV n L s).readTbuf i = s.readTbuf i := by
  simp only [State.readTbuf, passV_tbuf, passV_draw]
  rw [read_storeRegion_ge _ _ _ (by simpa using h)]

/-- What the horizontal pass stores (41_pass_ops.md R133). -/
theorem passH_readRbuf (sh : Nat) (lo hi : Int) {l k : Nat} (hl : l < L) (hk : k < n) :
    (passH n L sh lo hi s).readRbuf (l * n + k) =
      hout (transform s.rom n (fun j => s.readTbuf (j * L + l)) k) sh lo hi := by
  have hlt : l * n + k < L * n := by nlinarith
  have he := passOutputs_element s.rom s.readTbuf (fun v => hout v sh lo hi) hl hk
  rw [List.getElem?_eq_some_iff] at he
  obtain ⟨_, he⟩ := he
  simp only [State.readRbuf, passH_rbuf, passH_draw]
  rw [read_storeRegion_lt _ _ _ (by simpa using hlt), List.getElem_map, he, toInt_ofInt_hout]

/-- The horizontal pass leaves RBUF beyond its write set (20_memory.md R57). -/
theorem passH_readRbuf_beyond (sh : Nat) (lo hi : Int) {i : Nat} (h : L * n ≤ i) :
    (passH n L sh lo hi s).readRbuf i = s.readRbuf i := by
  simp only [State.readRbuf, passH_rbuf, passH_draw]
  rw [read_storeRegion_ge _ _ _ (by simpa using h)]

end Sys2Proof.Machine
end

