-- ==== Sys2Proof/Laws/Status.lean ====
section
/-! SUPPORT. What the two updates of STATUS do to each of its bits. -/

namespace Sys2Proof.Machine

theorem withDone_done (w : Word) : (withDone w).getLsbD 0 = true := by simp [withDone]

theorem withDone_other (w : Word) {k : Nat} (hk : k ≠ 0) : (withDone w).getLsbD k = w.getLsbD k := by
  rw [withDone, BitVec.getLsbD_or]
  by_cases h : k < 32
  · have : (0x00000001#32).getLsbD k = false := by interval_cases k <;> first | rfl | omega
    rw [this, Bool.or_false]
  · simp [BitVec.getLsbD_of_ge _ _ (Nat.le_of_not_lt h)]

theorem withFault_fault (c : FaultCause) (w : Word) : (withFault c w).getLsbD 1 = true := by
  simp [withFault]

theorem withFault_done (c : FaultCause) (w : Word) : (withFault c w).getLsbD 0 = false := by
  simp [withFault]

/-- The reserved bits 3:2 and 31:8 are kept at fault entry. -/
theorem withFault_other (c : FaultCause) (w : Word) {k : Nat} (hk : k = 2 ∨ k = 3 ∨ 8 ≤ k) :
    (withFault c w).getLsbD k = w.getLsbD k := by
  by_cases h : k < 32
  · have hk : k = 2 ∨ k = 3 ∨ (8 ≤ k ∧ k < 32) := by omega
    unfold withFault withCause
    rcases hk with rfl | rfl | ⟨h₁, h₂⟩
    · split <;> simp
    · split <;> simp
    · split <;> interval_cases k <;> simp
  · simp [BitVec.getLsbD_of_ge _ _ (Nat.le_of_not_lt h)]

/-- CAUSE at the entry of the first fault (60_exceptions.md R163). -/
theorem withFault_cause (c : FaultCause) {w : Word} (h : statusFault w = false) :
    statusCause (withFault c w) = c.code := by
  unfold withFault withCause statusCause
  rw [if_neg (by simp [h])]
  ext i hi
  have : i = 0 ∨ i = 1 ∨ i = 2 ∨ i = 3 := by omega
  rcases this with rfl | rfl | rfl | rfl <;> cases c <;> simp [FaultCause.code]

/-- A second entry would keep the first cause. -/
theorem withFault_cause_kept (c : FaultCause) {w : Word} (h : statusFault w = true) :
    statusCause (withFault c w) = statusCause w := by
  unfold withFault statusCause
  rw [if_pos h]
  ext i hi
  have : i = 0 ∨ i = 1 ∨ i = 2 ∨ i = 3 := by omega
  rcases this with rfl | rfl | rfl | rfl <;> simp

/-- DONE overwrites nothing but its own bit, so two words that agree elsewhere end equal. -/
theorem withDone_congr {v w : Word} (h : ∀ k, k ≠ 0 → v.getLsbD k = w.getLsbD k) : withDone v = withDone w := by
  refine BitVec.eq_of_getLsbD_eq fun k _ => ?_
  by_cases hk : k = 0
  · rw [hk, withDone_done, withDone_done]
  · rw [withDone_other v hk, withDone_other w hk, h k hk]

/-- The entry of a first fault overwrites DONE, FAULT and CAUSE, so two words that agree on the reserved bits end equal. -/
theorem withFault_congr (c : FaultCause) {v w : Word} (hv : statusFault v = false) (hw : statusFault w = false)
    (h : ∀ k, k = 2 ∨ k = 3 ∨ 8 ≤ k → v.getLsbD k = w.getLsbD k) : withFault c v = withFault c w := by
  have cause (k : Nat) (hk : k < 4) : (withFault c v).getLsbD (4 + k) = (withFault c w).getLsbD (4 + k) := by
    have := congrArg (fun b => b.getLsbD k) ((withFault_cause c hv).trans (withFault_cause c hw).symm)
    simpa [statusCause, hk] using this
  refine BitVec.eq_of_getLsbD_eq fun k _ => ?_
  have : k = 0 ∨ k = 1 ∨ (k = 2 ∨ k = 3 ∨ 8 ≤ k) ∨ ∃ m < 4, k = 4 + m := by
    by_cases hk : 4 ≤ k ∧ k < 8
    · exact .inr (.inr (.inr ⟨k - 4, by omega, by omega⟩))
    · omega
  rcases this with rfl | rfl | hk | ⟨m, hm, rfl⟩
  · rw [withFault_done, withFault_done]
  · rw [withFault_fault, withFault_fault]
  · rw [withFault_other c v hk, withFault_other c w hk, h k hk]
  · exact cause m hm

end Sys2Proof.Machine
end

