-- ==== Sys2Proof/Laws/Exec.lean ====
section
/-! SUPPORT. What `exec` answers, once per shape of command: every later proof cites these instead of opening a meaning. -/

namespace Sys2Proof.Machine

variable (s : State)

/-- The six `ITXV.n` (41_pass_ops.md R134). -/
theorem exec_vertical {i : Instr} (h : i.horizontal = false) :
    exec i s = .next (runVertical i.size i.line s) := by
  cases i <;> first | rfl | cases h

/-- The six `ITXH.n` (41_pass_ops.md R134). -/
theorem exec_horizontal {i : Instr} (h : i.vertical = false) :
    exec i s = .next (runHorizontal i.size i.shift i.line s) := by
  cases i <;> first | rfl | cases h

/-- The six `ITX.n` (42_itx2d_ops.md R151). -/
theorem exec_twoD {i : Instr} (hv : i.vertical = true) (hh : i.horizontal = true) :
    exec i s = .next (run2D i.size i.shift i.line s) := by
  cases i <;> first | (cases hv <;> done) | (cases hh <;> done) | rfl

/-- A command performs at least one of the two steps (30_encoding.md R72). -/
theorem vertical_or_horizontal (i : Instr) : i.vertical = true ∨ i.horizontal = true := by
  cases i <;> first | exact .inl rfl | exact .inr rfl

theorem size_mem (i : Instr) :
    i.size = 2 ∨ i.size = 4 ∨ i.size = 8 ∨ i.size = 16 ∨ i.size = 32 ∨ i.size = 64 := by
  cases i <;> simp [Instr.size]

theorem singleLineOk_iff (line : Line) : singleLineOk line = true ↔ 1 ≤ line.toNat ∧ line.toNat ≤ 64 := by
  unfold singleLineOk lineOperand; exact decide_eq_true_iff

/-- Check 3 of a 2-D command, given that its size is a legal LINE. -/
theorem squareLineOk_iff {n : Nat} (h₁ : 1 ≤ n) (h₂ : n ≤ 64) (line : Line) :
    squareLineOk n line = true ↔ line.toNat = n := by
  rw [squareLineOk, Bool.and_eq_true, singleLineOk_iff, decide_eq_true_iff, lineOperand]; omega

theorem rangeOk_iff : s.rangeOk = true ↔ s.omin.toInt ≤ s.omax.toInt := by
  unfold State.rangeOk State.rangeLow State.rangeHigh; exact decide_eq_true_iff

theorem wellFormed_single {i : Instr} (h : i.vertical = false ∨ i.horizontal = false) :
    i.wellFormed = true ↔ 1 ≤ i.line.toNat ∧ i.line.toNat ≤ 64 := by
  cases i <;>
    first
    | (rcases h with h | h <;> cases h <;> done)
    | simp [Instr.wellFormed, singleLineLegal, Instr.line]

theorem wellFormed_square {i : Instr} (hv : i.vertical = true) (hh : i.horizontal = true) :
    i.wellFormed = true ↔ i.line.toNat = i.size := by
  cases i <;>
    first
    | (cases hv <;> done)
    | (cases hh <;> done)
    | simp [Instr.wellFormed, squareLineLegal, Instr.line, Instr.size]

variable {s}

theorem runVertical_of_legal {n : Nat} {line : Line} (h : singleLineOk line = true) :
    runVertical n line s = (passV n line.toNat s).complete := by rw [runVertical, if_pos h]; rfl

theorem runVertical_of_illegal {n : Nat} {line : Line} (h : singleLineOk line = false) :
    runVertical n line s = s.raiseFault .badLine := by simp [runVertical, h]

theorem runHorizontal_of_legal {n : Nat} {shift : Shift} {line : Line} (h : singleLineOk line = true)
    (hr : s.rangeOk = true) :
    runHorizontal n shift line s =
      (passH n line.toNat shift.toNat s.omin.toInt s.omax.toInt s).complete := by
  rw [runHorizontal, if_pos h, if_pos hr]; rfl

theorem runHorizontal_badRange {n : Nat} {shift : Shift} {line : Line} (h : singleLineOk line = true)
    (hr : s.rangeOk = false) : runHorizontal n shift line s = s.raiseFault .badRange := by
  simp [runHorizontal, h, hr]

theorem runHorizontal_of_illegal {n : Nat} {shift : Shift} {line : Line} (h : singleLineOk line = false) :
    runHorizontal n shift line s = s.raiseFault .badLine := by simp [runHorizontal, h]

theorem run2D_of_legal {n : Nat} {shift : Shift} {line : Line} (h : squareLineOk n line = true)
    (hr : s.rangeOk = true) :
    run2D n shift line s =
      (passH n n shift.toNat s.omin.toInt s.omax.toInt (passV n n s)).complete := by
  rw [run2D, if_pos h, if_pos hr]; rfl

theorem run2D_badRange {n : Nat} {shift : Shift} {line : Line} (h : squareLineOk n line = true)
    (hr : s.rangeOk = false) : run2D n shift line s = s.raiseFault .badRange := by simp [run2D, h, hr]

theorem run2D_of_illegal {n : Nat} {shift : Shift} {line : Line} (h : squareLineOk n line = false) :
    run2D n shift line s = s.raiseFault .badLine := by simp [run2D, h]

/-- An illegal LINE faults BAD_LINE, whatever the row (60_exceptions.md R161 check 3). -/
theorem exec_of_illFormed {i : Instr} (s : State) (h : i.wellFormed = false) :
    exec i s = .next (s.raiseFault .badLine) := by
  have single (hs : i.vertical = false ∨ i.horizontal = false) : singleLineOk i.line = false := by
    rw [Bool.eq_false_iff, ne_eq, singleLineOk_iff, ← wellFormed_single hs, h]; simp
  cases hh : i.horizontal with
  | false => rw [exec_vertical s hh, runVertical_of_illegal (single (.inr hh))]
  | true =>
    cases hv : i.vertical with
    | false => rw [exec_horizontal s hv, runHorizontal_of_illegal (single (.inl hv))]
    | true =>
      have hn := size_mem i
      rw [exec_twoD s hv hh, run2D_of_illegal]
      rw [Bool.eq_false_iff, ne_eq, squareLineOk_iff (by omega) (by omega), ← wellFormed_square hv hh, h]; simp

/-- An empty output range faults BAD_RANGE for a legal command with a horizontal step (R161 check 4). -/
theorem exec_of_badRange {i : Instr} {s : State} (h : i.wellFormed = true) (hh : i.horizontal = true)
    (hr : s.omax.toInt < s.omin.toInt) : exec i s = .next (s.raiseFault .badRange) := by
  have hr' : s.rangeOk = false := by rw [Bool.eq_false_iff, ne_eq, rangeOk_iff]; omega
  cases hv : i.vertical with
  | false => rw [exec_horizontal s hv, runHorizontal_badRange ((singleLineOk_iff _).mpr ((wellFormed_single (.inl hv)).mp h)) hr']
  | true =>
    have hn := size_mem i
    rw [exec_twoD s hv hh, run2D_badRange
      ((squareLineOk_iff (by omega) (by omega) _).mpr ((wellFormed_square hv hh).mp h)) hr']

/-- A legal `ITXV.n` completes its pass. -/
theorem exec_vertical_legal {i : Instr} (s : State) (h : i.wellFormed = true) (hh : i.horizontal = false) :
    exec i s = .next (passV i.size i.line.toNat s).complete := by
  rw [exec_vertical s hh, runVertical_of_legal ((singleLineOk_iff _).mpr ((wellFormed_single (.inr hh)).mp h))]

/-- A legal `ITXH.n` completes its pass when the range is not empty. -/
theorem exec_horizontal_legal {i : Instr} {s : State} (h : i.wellFormed = true) (hv : i.vertical = false)
    (hr : s.omin.toInt ≤ s.omax.toInt) :
    exec i s = .next (passH i.size i.line.toNat i.shift.toNat s.omin.toInt s.omax.toInt s).complete := by
  rw [exec_horizontal s hv, runHorizontal_of_legal
    ((singleLineOk_iff _).mpr ((wellFormed_single (.inl hv)).mp h)) ((rangeOk_iff s).mpr hr)]

/-- A legal `ITX.n` completes its two passes when the range is not empty. -/
theorem exec_twoD_legal {i : Instr} {s : State} (h : i.wellFormed = true) (hv : i.vertical = true)
    (hh : i.horizontal = true) (hr : s.omin.toInt ≤ s.omax.toInt) :
    exec i s = .next (passH i.size i.size i.shift.toNat s.omin.toInt s.omax.toInt (passV i.size i.size s)).complete := by
  have hn := size_mem i
  rw [exec_twoD s hv hh, run2D_of_legal
    ((squareLineOk_iff (by omega) (by omega) _).mpr ((wellFormed_square hv hh).mp h)) ((rangeOk_iff s).mpr hr)]

/-- Everything `exec` can do: take one of the two operand faults, or complete its pass or passes. -/
theorem exec_cases (i : Instr) (s : State) :
    (i.wellFormed = false ∧ exec i s = .next (s.raiseFault .badLine)) ∨
    (i.wellFormed = true ∧ i.horizontal = true ∧ s.omax.toInt < s.omin.toInt ∧
      exec i s = .next (s.raiseFault .badRange)) ∨
    (i.wellFormed = true ∧ i.vertical = true ∧ i.horizontal = false ∧
      exec i s = .next (passV i.size i.line.toNat s).complete) ∨
    (i.wellFormed = true ∧ i.vertical = false ∧ i.horizontal = true ∧ s.omin.toInt ≤ s.omax.toInt ∧ exec i s =
      .next (passH i.size i.line.toNat i.shift.toNat s.omin.toInt s.omax.toInt s).complete) ∨
    (i.wellFormed = true ∧ i.vertical = true ∧ i.horizontal = true ∧ i.line.toNat = i.size ∧
      s.omin.toInt ≤ s.omax.toInt ∧ exec i s =
      .next (passH i.size i.size i.shift.toNat s.omin.toInt s.omax.toInt (passV i.size i.size s)).complete) := by
  cases hw : i.wellFormed with
  | false => exact .inl ⟨rfl, exec_of_illFormed s hw⟩
  | true =>
    cases hh : i.horizontal with
    | false =>
      have hv : i.vertical = true := (vertical_or_horizontal i).resolve_right (by simp [hh])
      exact .inr (.inr (.inl ⟨rfl, hv, rfl, exec_vertical_legal s hw hh⟩))
    | true =>
      rcases lt_or_ge s.omax.toInt s.omin.toInt with hr | hr
      · exact .inr (.inl ⟨rfl, rfl, hr, exec_of_badRange hw hh hr⟩)
      · cases hv : i.vertical with
        | false => exact .inr (.inr (.inr (.inl ⟨rfl, rfl, rfl, hr, exec_horizontal_legal hw hv hr⟩)))
        | true =>
          exact .inr (.inr (.inr (.inr ⟨rfl, rfl, rfl, (wellFormed_square hv hh).mp hw, hr,
            exec_twoD_legal hw hv hh hr⟩)))

end Sys2Proof.Machine
end

