-- ==== Sys2Proof/Laws/Invariant.lean ====
section
/-! SUPPORT. The two halves of the machine's invariant, one lemma per way they can change. -/

namespace Sys2Proof.Machine

variable {s t : State}

theorem buffersCanonical_iff (s : State) :
    s.buffersCanonical = true ↔ Memory.wf s.cbuf = true ∧ Memory.wf s.tbuf = true ∧ Memory.wf s.rbuf = true := by
  simp [State.buffersCanonical, and_assoc]

/-- A vertical pass inside the buffer keeps the canonical form. -/
theorem buffersCanonical_passV {n L : Nat} (h : s.buffersCanonical = true) (hb : L * n ≤ Config.bufDepth) :
    (passV n L s).buffersCanonical = true := by
  rw [buffersCanonical_iff] at h ⊢
  exact ⟨h.1, wf_storeRegion h.2.1 (by simpa using hb), h.2.2⟩

/-- A horizontal pass inside the buffer keeps the canonical form. -/
theorem buffersCanonical_passH {n L : Nat} (sh : Nat) (lo hi : Int) (h : s.buffersCanonical = true)
    (hb : L * n ≤ Config.bufDepth) : (passH n L sh lo hi s).buffersCanonical = true := by
  rw [buffersCanonical_iff] at h ⊢
  exact ⟨h.1, h.2.1, wf_storeRegion h.2.2 (by simpa using hb)⟩

/-- Whether STATUS is truthful is decided by the four control registers. -/
theorem statusTruthful_congr (hc : t.cmd = s.cmd) (hs : t.status = s.status) (hl : t.omin = s.omin)
    (hh : t.omax = s.omax) : t.statusTruthful = s.statusTruthful := by
  simp only [State.statusTruthful, hc, hs, hl, hh]

/-- What DONE does to the two values STATUS has outside the FAULT state. -/
theorem withDone_of_clear {w : Word} (h : w = 0x00#32 ∨ w = 0x01#32) : withDone w = 0x01#32 := by
  rcases h with rfl | rfl <;> decide

/-- What fault entry does to them (60_exceptions.md R160, R163). -/
theorem withFault_of_clear {w : Word} (h : w = 0x00#32 ∨ w = 0x01#32) :
    withFault .illegalCmd w = 0x12#32 ∧ withFault .badSize w = 0x22#32 ∧
      withFault .badLine w = 0x32#32 ∧ withFault .badRange w = 0x42#32 := by
  rcases h with rfl | rfl <;> decide

end Sys2Proof.Machine
end

