-- ==== Sys2Proof/Laws/PerInstr.lean ====
section
/-! SUPPORT. One family of facts about every command as syntax: its word has its row's pattern under the mask, and its two
operand fields are read back from it (30_encoding.md R70, R76). -/

namespace Sys2Proof.Laws.WordOfRow

/-- The word of the command matches its row, and carries its operands. -/
def Statement (i : Instr) : Prop :=
  encode i &&& rowMask = rowMatch i ∧ shiftField (encode i) = i.shift ∧ lineField (encode i) = i.line

/-- The bits under the mask are the low byte and the reserved zeros. -/
theorem masked (ph pv : Bool) (m : BitVec 3) (shift : Shift) (line : Line) :
    encodeFields ph pv m shift line &&& rowMask = (lowByte ph pv m).setWidth 32 := by
  have low (k : Nat) (hk : k < 8) : (encodeFields ph pv m shift line).getLsbD k = (lowByte ph pv m).getLsbD k := by
    rw [encodeFields_bit]; interval_cases k <;> simp only [lowByte, BitVec.getLsbD_append] <;> simp
  refine BitVec.eq_of_getLsbD_eq fun k hk => ?_
  rw [BitVec.getLsbD_and, BitVec.getLsbD_setWidth, decide_eq_true hk, Bool.true_and]
  by_cases h : k < 8
  · rw [low k h]
    have : rowMask.getLsbD k = true := by interval_cases k <;> rfl
    rw [this, Bool.and_true]
  · rw [BitVec.getLsbD_of_ge (lowByte ph pv m) k (by omega), encodeFields_bit]
    interval_cases k <;> simp [rowMask] at h ⊢

theorem itxv2 (shift : Shift) (line : Line) : Statement (.itxv2 shift line) :=
  ⟨by rw [encode, masked]; rfl, by simp [encode, Instr.shift], by simp [encode, Instr.line]⟩

theorem itxv4 (shift : Shift) (line : Line) : Statement (.itxv4 shift line) :=
  ⟨by rw [encode, masked]; rfl, by simp [encode, Instr.shift], by simp [encode, Instr.line]⟩

theorem itxv8 (shift : Shift) (line : Line) : Statement (.itxv8 shift line) :=
  ⟨by rw [encode, masked]; rfl, by simp [encode, Instr.shift], by simp [encode, Instr.line]⟩

theorem itxv16 (shift : Shift) (line : Line) : Statement (.itxv16 shift line) :=
  ⟨by rw [encode, masked]; rfl, by simp [encode, Instr.shift], by simp [encode, Instr.line]⟩

theorem itxv32 (shift : Shift) (line : Line) : Statement (.itxv32 shift line) :=
  ⟨by rw [encode, masked]; rfl, by simp [encode, Instr.shift], by simp [encode, Instr.line]⟩

theorem itxv64 (shift : Shift) (line : Line) : Statement (.itxv64 shift line) :=
  ⟨by rw [encode, masked]; rfl, by simp [encode, Instr.shift], by simp [encode, Instr.line]⟩

theorem itxh2 (shift : Shift) (line : Line) : Statement (.itxh2 shift line) :=
  ⟨by rw [encode, masked]; rfl, by simp [encode, Instr.shift], by simp [encode, Instr.line]⟩

theorem itxh4 (shift : Shift) (line : Line) : Statement (.itxh4 shift line) :=
  ⟨by rw [encode, masked]; rfl, by simp [encode, Instr.shift], by simp [encode, Instr.line]⟩

theorem itxh8 (shift : Shift) (line : Line) : Statement (.itxh8 shift line) :=
  ⟨by rw [encode, masked]; rfl, by simp [encode, Instr.shift], by simp [encode, Instr.line]⟩

theorem itxh16 (shift : Shift) (line : Line) : Statement (.itxh16 shift line) :=
  ⟨by rw [encode, masked]; rfl, by simp [encode, Instr.shift], by simp [encode, Instr.line]⟩

theorem itxh32 (shift : Shift) (line : Line) : Statement (.itxh32 shift line) :=
  ⟨by rw [encode, masked]; rfl, by simp [encode, Instr.shift], by simp [encode, Instr.line]⟩

theorem itxh64 (shift : Shift) (line : Line) : Statement (.itxh64 shift line) :=
  ⟨by rw [encode, masked]; rfl, by simp [encode, Instr.shift], by simp [encode, Instr.line]⟩

theorem itx2 (shift : Shift) (line : Line) : Statement (.itx2 shift line) :=
  ⟨by rw [encode, masked]; rfl, by simp [encode, Instr.shift], by simp [encode, Instr.line]⟩

theorem itx4 (shift : Shift) (line : Line) : Statement (.itx4 shift line) :=
  ⟨by rw [encode, masked]; rfl, by simp [encode, Instr.shift], by simp [encode, Instr.line]⟩

theorem itx8 (shift : Shift) (line : Line) : Statement (.itx8 shift line) :=
  ⟨by rw [encode, masked]; rfl, by simp [encode, Instr.shift], by simp [encode, Instr.line]⟩

theorem itx16 (shift : Shift) (line : Line) : Statement (.itx16 shift line) :=
  ⟨by rw [encode, masked]; rfl, by simp [encode, Instr.shift], by simp [encode, Instr.line]⟩

theorem itx32 (shift : Shift) (line : Line) : Statement (.itx32 shift line) :=
  ⟨by rw [encode, masked]; rfl, by simp [encode, Instr.shift], by simp [encode, Instr.line]⟩

theorem itx64 (shift : Shift) (line : Line) : Statement (.itx64 shift line) :=
  ⟨by rw [encode, masked]; rfl, by simp [encode, Instr.shift], by simp [encode, Instr.line]⟩

end Sys2Proof.Laws.WordOfRow
end

