-- ==== Sys2Proof/Laws/Step.lean ====
section
/-! SUPPORT. One step, case by case: the idle engine, the issue of an operation, the write of CMD. -/

namespace Sys2Proof.Machine

variable {s : State}

/-- The idle engine (10_state.md R20). -/
theorem step_idle (h : s.ops = []) : step s = .next s := by unfold step; rw [h]

/-- The host's next operation (20_memory.md R63). -/
theorem step_issue {op : HostOp} {rest : List HostOp} (h : s.ops = op :: rest) :
    step s = hostOp op (s.issue rest) := by unfold step; rw [h]

/-- A command written in the FAULT state is ignored (60_exceptions.md R165). -/
theorem issueCommand_faulted (w : Word) (h : s.faulted = true) : issueCommand w s = .next s := if_pos h

/-- A word that decodes runs (43_host_ops.md R159). -/
theorem issueCommand_decoded {w : Word} {i : Instr} (h : s.faulted = false) (hd : decode w = .ok i) :
    issueCommand w s = exec i { s with cmd := w } := by simp [issueCommand, h, hd]

/-- A word that does not decode faults with its decode error's cause (60_exceptions.md R161). -/
theorem issueCommand_rejected {w : Word} {e : DecodeError} (h : s.faulted = false) (hd : decode w = .error e) :
    issueCommand w s = .next (State.raiseFault (decodeCause e) { s with cmd := w }) := by simp [issueCommand, h, hd]

/-- A legal command's region lies inside a buffer (20_memory.md R58). -/
theorem region_le_bufDepth {n L : Nat} (hn : n ≤ 64) (hL : L ≤ 64) : L * n ≤ Config.bufDepth := by
  have := Nat.mul_le_mul hL hn; simpa [Config.bufDepth] using this

/-- The vertical pass keeps TBUF canonical. -/
theorem wf_passV {n L : Nat} (h : Memory.wf s.tbuf = true) (hb : L * n ≤ Config.bufDepth) :
    Memory.wf (passV n L s).tbuf = true := wf_storeRegion h (by simpa using hb)

/-- The horizontal pass keeps RBUF canonical. -/
theorem wf_passH {n L : Nat} (sh : Nat) (lo hi : Int) (h : Memory.wf s.rbuf = true) (hb : L * n ≤ Config.bufDepth) :
    Memory.wf (passH n L sh lo hi s).rbuf = true := wf_storeRegion h (by simpa using hb)

end Sys2Proof.Machine
end

