-- ==== Sys2Proof/Laws/Transform.lean ====
section
/-! SUPPORT. A transform as one matrix product, the base case included. -/

namespace Sys2Proof.Machine

@[simp] theorem romEntry_4 (r : Rom) : romEntry r 4 = tableEntry r.tm4 := rfl
@[simp] theorem romEntry_8 (r : Rom) : romEntry r 8 = tableEntry r.tm8 := rfl
@[simp] theorem romEntry_16 (r : Rom) : romEntry r 16 = tableEntry r.tm16 := rfl
@[simp] theorem romEntry_32 (r : Rom) : romEntry r 32 = tableEntry r.tm32 := rfl
@[simp] theorem romEntry_64 (r : Rom) : romEntry r 64 = tableEntry r.tm64 := rfl

/-- The transform of a table size is the product with its table (40_kernel.md R91). -/
theorem transform_table (r : Rom) {n : Nat} (hn : n ≠ 2) (x : Nat → Int) (k : Nat) :
    transform r n x k = ∑ j ∈ Finset.range n, romEntry r n j k * x j := by
  rw [transform, if_neg hn, kernel, sumBelow_eq_sum]

/-- Output 0 of the base case is the sum of its taps (40_kernel.md R98). -/
@[simp] theorem transform_two_zero (r : Rom) (x : Nat → Int) : transform r 2 x 0 = x 0 + x 1 := by
  simp [transform, kernel2, Config.g2]

/-- Output 1 of the base case is the difference of its taps (40_kernel.md R98). -/
@[simp] theorem transform_two_one (r : Rom) (x : Nat → Int) : transform r 2 x 1 = x 0 - x 1 := by
  simp [transform, kernel2, Config.g2]

/-- Every transform is the product with its basis. -/
theorem transform_eq_sum_basis (r : Rom) (n : Nat) (x : Nat → Int) {k : Nat} (hk : k < n) :
    transform r n x k = ∑ j ∈ Finset.range n, basis r n j k * x j := by
  by_cases hn : n = 2
  · subst hn
    obtain rfl | rfl : k = 0 ∨ k = 1 := by omega
    · simp [basis, twoTap, Finset.sum_range_succ]
    · simp [basis, twoTap, Finset.sum_range_succ]; ring
  · rw [transform_table r hn]; simp [basis, hn]

/-- A basis entry is an `s8` (10_state.md R21). -/
theorem abs_basis_le (r : Rom) (n j k : Nat) : |basis r n j k| ≤ 128 := by
  unfold basis twoTap; split
  · split <;> simp
  · exact abs_romEntry_le r n j k

end Sys2Proof.Machine
end

