-- ==== Sys2Proof/Tests/Slice0.lean ====
section
/-! SUPPORT. Tests. Every expected value is the spec's: the vector it comes from is named beside it (95_test_vectors.md unless
another file is named), or it is worked out from the rule cited. Last, one witness for the hypotheses of each statement. -/

namespace Sys2Proof.Tests

open Sys2Proof Sys2Proof.Machine

set_option maxRecDepth 40000

/-! ### Small states -/

/-- The next state, if there is one. -/
def outState : Host.Outcome State Fault Refusal → Option State
  | .next s => some s
  | .fault _ => none
  | .refused _ => none

/-- The table of rows `rows j` (general-knowledge contents: 93_implementation_defined.md G1). -/
def tableOf (n : Nat) (rows : List (List Int)) : Table n :=
  Vector.ofFn fun j => Vector.ofFn fun k => BitVec.ofInt 8 ((rows.getD j.1 []).getD k.1 0)

/-- `TM4` of G1. -/
def g4 : Table 4 := tableOf 4 [[64, 64, 64, 64], [84, 35, -35, -84], [64, -64, -64, 64], [35, -84, 84, -35]]

/-- `TM8` of G1. -/
def g8 : Table 8 := tableOf 8
  [[64, 64, 64, 64, 64, 64, 64, 64], [89, 75, 50, 18, -18, -50, -75, -89], [84, 35, -35, -84, -84, -35, 35, 84],
   [75, -18, -89, -50, 50, 89, 18, -75], [64, -64, -64, 64, 64, -64, -64, 64], [50, -89, 18, 75, -75, -18, 89, -50],
   [35, -84, 84, -35, -35, 84, -84, 35], [18, -50, 75, -89, 89, -75, 50, -18]]

/-- A table whose entry names its row and column: row `j`, column `k` holds `j + 2 * k - 100`, so that a transposed or
shifted read shows. It is no basis; it stands for an arbitrary ROM. -/
def marked (n : Nat) : Table n :=
  Vector.ofFn fun j => Vector.ofFn fun k => BitVec.ofInt 8 ((j.1 : Int) + 2 * (k.1 : Int) - 100)

/-- The ROM of the tests. -/
def testRom : Rom := { tm4 := g4, tm8 := g8, tm16 := marked 16, tm32 := marked 32, tm64 := marked 64 }

/-- The state after reset with the test ROM and the first elements of CBUF and TBUF written. -/
def start (c : List Int) (t : List Int := []) : State :=
  { State.reset with
    rom := testRom
    cbuf := Memory.number 0 (c.map (BitVec.ofInt 16))
    tbuf := Memory.number 0 (t.map (BitVec.ofInt 32)) }

/-- The first `n` elements of TBUF after a command. -/
def tbufAfter (n : Nat) (i : Instr) (s : State) : Option (List Int) :=
  (outState (exec i s)).map fun t => (List.range n).map t.readTbuf

/-- The first `n` elements of RBUF after a command. -/
def rbufAfter (n : Nat) (i : Instr) (s : State) : Option (List Int) :=
  (outState (exec i s)).map fun t => (List.range n).map t.readRbuf

/-- The vector of length `n` whose only non-zero element is `v` at index `j`. -/
def unitAt (n j : Nat) (v : Int) : List Int := (List.range n).map fun i => if i = j then v else 0

/-- The output range set by the host. -/
def withRange (lo hi : Int) (s : State) : State :=
  { s with omin := BitVec.ofInt 32 lo, omax := BitVec.ofInt 32 hi }

/-- The host's next operation is `op`. -/
def before (op : HostOp) (s : State) : State := { s with ops := [op] }

/-- A state in which a command has faulted BAD_LINE (P3 step 8). -/
def faulted : State := { start [1, 2, 3, 4] with cmd := 0x00030019#32, status := 0x32#32 }

/-! ### The checks of a command as syntax refuse ill-formed terms (30_encoding.md R74) -/

theorem test_singleLine_refuses_0 : (Instr.itxv2 0 0).wellFormed = false := by decide
theorem test_singleLine_refuses_65 : (Instr.itxh64 0 65).wellFormed = false := by decide
theorem test_singleLine_accepts_1_and_64 :
    (Instr.itxv2 0 1).wellFormed = true ∧ (Instr.itxh4 31 64).wellFormed = true := by decide
theorem test_squareLine_refuses_neighbours :
    (Instr.itx2 0 3).wellFormed = false ∧ (Instr.itx2 0 1).wellFormed = false ∧
      (Instr.itx64 0 63).wellFormed = false ∧ (Instr.itx64 0 65).wellFormed = false ∧
      (Instr.itx4 0 0).wellFormed = false := by decide
theorem test_squareLine_accepts_n : (Instr.itx2 0 2).wellFormed = true ∧ (Instr.itx64 0 64).wellFormed = true := by decide

/-! ### Decoding: one word per command, laid out by hand from the fields of 30_encoding.md R70, and R84's where it has one -/

/-- V2-9. -/
theorem test_decode_itxv2 : decode 0x00011F09#32 = .ok (.itxv2 31 1) := by decide

/-- R84. -/
theorem test_decode_itxv4 : decode 0x0002000A#32 = .ok (.itxv4 0 2) := by decide

/-- R84. -/
theorem test_decode_itxv8 : decode 0x0008000B#32 = .ok (.itxv8 0 8) := by decide

/-- LINE 64, SHIFT 5. -/
theorem test_decode_itxv16 : decode 0x0040050C#32 = .ok (.itxv16 5 64) := by decide

/-- LINE 1, SHIFT 16. -/
theorem test_decode_itxv32 : decode 0x0001100D#32 = .ok (.itxv32 16 1) := by decide

/-- LINE 32. -/
theorem test_decode_itxv64 : decode 0x0020000E#32 = .ok (.itxv64 0 32) := by decide

/-- R84. -/
theorem test_decode_itxh2 : decode 0x00011411#32 = .ok (.itxh2 20 1) := by decide

/-- P2. -/
theorem test_decode_itxh4 : decode 0x00040C12#32 = .ok (.itxh4 12 4) := by decide

/-- R84. -/
theorem test_decode_itxh8 : decode 0x00080713#32 = .ok (.itxh8 7 8) := by decide

/-- LINE 16, SHIFT 31. -/
theorem test_decode_itxh16 : decode 0x00101F14#32 = .ok (.itxh16 31 16) := by decide

/-- LINE 63, SHIFT 1. -/
theorem test_decode_itxh32 : decode 0x003F0115#32 = .ok (.itxh32 1 63) := by decide

/-- LINE 64. -/
theorem test_decode_itxh64 : decode 0x00400016#32 = .ok (.itxh64 0 64) := by decide

/-- R84. -/
theorem test_decode_itx2 : decode 0x00020019#32 = .ok (.itx2 0 2) := by decide

/-- R84. -/
theorem test_decode_itx4 : decode 0x00040C1A#32 = .ok (.itx4 12 4) := by decide

/-- R84. -/
theorem test_decode_itx8 : decode 0x00080C1B#32 = .ok (.itx8 12 8) := by decide

/-- LINE 16, SHIFT 16. -/
theorem test_decode_itx16 : decode 0x0010101C#32 = .ok (.itx16 16 16) := by decide

/-- LINE 32, SHIFT 8. -/
theorem test_decode_itx32 : decode 0x0020081D#32 = .ok (.itx32 8 32) := by decide

/-- R84. -/
theorem test_decode_itx64 : decode 0x0040131E#32 = .ok (.itx64 19 64) := by decide

/-- Each reserved field, at both its ends, makes the word illegal (R75). -/
theorem test_decode_reserved :
    decode 0x00020039#32 = .error .illegalCmd ∧ decode 0x00020099#32 = .error .illegalCmd ∧
      decode 0x00022019#32 = .error .illegalCmd ∧ decode 0x00028019#32 = .error .illegalCmd ∧
      decode 0x00820019#32 = .error .illegalCmd ∧ decode 0x80020019#32 = .error .illegalCmd := by decide

/-- No step asked for (R72), even when LOG2N is bad too (60_exceptions.md R161: check 1 before check 2). -/
theorem test_decode_noStep : decode 0x00020001#32 = .error .illegalCmd ∧ decode 0#32 = .error .illegalCmd := by decide

/-- LOG2N 0 and 7 (R71). -/
theorem test_decode_badSize : decode 0x00020018#32 = .error .badSize ∧ decode 0x0002001F#32 = .error .badSize := by decide

/-- A word whose LINE is illegal is still its row's command (R76). -/
theorem test_decode_badLine_is_command :
    decode 0x00030019#32 = .ok (.itx2 0 3) ∧ decode 0x007F0009#32 = .ok (.itxv2 0 127) := by decide

/-- A number that has more than one word's bits is no command (R80). -/
theorem test_decodeTableWord_long : decodeTableWord 40 0x0100020019 = none ∧
    decodeTableWord 32 0x00020019 = some (.itx2 0 2) := by decide

/-! ### The integer functions (F-1 to F-10) -/

theorem test_addOf : addOf 0 = 0 ∧ addOf 1 = 1 ∧ addOf 7 = 64 ∧ addOf 31 = 1073741824 := by decide
theorem test_asr : asr 7 1 = 3 ∧ asr (-7) 1 = -4 ∧ asr (-1) 31 = -1 ∧ asr 1 31 = 0 ∧ asr 5 0 = 5 := by decide
theorem test_clamp32 : clamp32 2147483648 = 2147483647 ∧ clamp32 (-2147483649) = -2147483648 := by decide
theorem test_sat16 : sat16 32768 = 32767 ∧ sat16 (-32769) = -32768 ∧ sat16 40000 = 32767 := by decide
theorem test_clamp : clamp 5 0 0 = 0 ∧ clamp (-9) (-512) 511 = -9 ∧ clamp (-600) (-512) 511 = -512 := by decide
theorem test_hout : hout 128 7 (-32768) 32767 = 1 ∧ hout 4294967294 20 (-32768) 32767 = 2048 ∧
    hout (-4294967296) 31 (-32768) 32767 = -1 := by decide

/-- The butterfly trace of V4-5. -/
theorem test_butterfly : (List.range 4).map (kernelPB (tableEntry g4) 2 fun j => [10, -3, 2, 1].getD j 0) =
    [551, 323, 701, 985] := by decide

/-- Both tables of G1 satisfy SYM (93_implementation_defined.md G1). -/
theorem test_sym_g4 : TableSym (tableEntry g4) 2 := by decide
theorem test_sym_g8 : TableSym (tableEntry g8) 3 := by decide

/-! ### The commands -/

/-- V2-6. -/
theorem test_itxv2 : tbufAfter 2 (.itxv2 0 1) (start [32767, -32768]) = some [-1, 65535] := by decide
/-- V2-8: three lines. -/
theorem test_itxv2_lines : tbufAfter 6 (.itxv2 31 3) (start [1, 2, 3, 10, 20, 30]) =
    some [11, -9, 22, -18, 33, -27] := by decide
/-- V4-5. -/
theorem test_itxv4 : tbufAfter 4 (.itxv4 0 1) (start [10, -3, 2, 1]) = some [551, 323, 701, 985] := by decide
/-- V4-10: two lines. -/
theorem test_itxv4_lines : tbufAfter 8 (.itxv4 0 2) (start [1, 2, 0, 3, 0, 0, 0, -1]) =
    some [64, 64, 64, 64, 345, 317, -61, -89] := by decide
/-- V8-1. -/
theorem test_itxv8 : tbufAfter 8 (.itxv8 0 1) (start [100, -50, 25, 7, -3, 2, 0, 1]) =
    some [4501, 3363, 2705, 2919, 5297, 8729, 11571, 12115] := by decide
/-- 41_pass_ops.md R123: `c` at input 3 gives `c * TM16[3][k]`, here 5 * (3 + 2 * k - 100). -/
theorem test_itxv16 : tbufAfter 3 (.itxv16 0 1) (start (unitAt 16 3 5)) = some [-485, -475, -465] := by decide
/-- R124: a unit input at index 31 gives `TM32[31][k]`. -/
theorem test_itxv32 : tbufAfter 2 (.itxv32 0 1) (start (unitAt 32 31 1)) = some [-69, -67] := by decide
/-- R125: a unit input at index 63 gives `TM64[63][k]`. -/
theorem test_itxv64 : tbufAfter 2 (.itxv64 0 1) (start (unitAt 64 63 1)) = some [-37, -35] := by decide

/-- H2-19: two lines, rounding. -/
theorem test_itxh2_lines : rbufAfter 4 (.itxh2 1 2) (start [] [5, -7, 2, 4]) = some [4, 2, -1, -5] := by decide
/-- H2-14 and H2-5 share the shape: the narrow saturates, and does not wrap. -/
theorem test_itxh2_saturates : rbufAfter 2 (.itxh2 0 1)
    (withRange (-2147483648) 2147483647 (start [] [-40000, 0])) = some [-32768, -32768] := by decide
/-- H4-10: all four sums leave the 32-bit range. -/
theorem test_itxh4 : rbufAfter 4 (.itxh4 20 1) (start [] [2147483647, 2147483647, 2147483647, 2147483647]) =
    some [2048, -2048, 2048, 2048] := by decide
/-- H4-2. -/
theorem test_itxh4_rounds : rbufAfter 4 (.itxh4 7 1) (start [] [100, -50, 25, 7]) = some [32, 19, 56, 93] := by decide
/-- H8-1. -/
theorem test_itxh8 : rbufAfter 8 (.itxh8 7 1) (start [] [100, -50, 25, 7, -3, 2, 0, 1]) =
    some [35, 26, 21, 23, 41, 68, 90, 95] := by decide
/-- R129: a unit input at index 15 gives `TM16[15][k]`. -/
theorem test_itxh16 : rbufAfter 3 (.itxh16 0 1) (start [] (unitAt 16 15 1)) = some [-85, -83, -81] := by decide
/-- R130: a unit input at index 2 gives `TM32[2][k]`. -/
theorem test_itxh32 : rbufAfter 2 (.itxh32 0 1) (start [] (unitAt 32 2 1)) = some [-98, -96] := by decide
/-- R131: a unit input at index 40 gives `TM64[40][k]`. -/
theorem test_itxh64 : rbufAfter 2 (.itxh64 0 1) (start [] (unitAt 64 40 1)) = some [-60, -58] := by decide

/-- P1. -/
theorem test_itx2 : rbufAfter 4 (.itx2 2 2) (start [100, -20, 7, 3]) = some [23, 31, 18, 29] := by decide
/-- P1: what the vertical pass leaves in TBUF. -/
theorem test_itx2_tbuf : tbufAfter 4 (.itx2 2 2) (start [100, -20, 7, 3]) = some [107, 93, -17, -23] := by decide
/-- X4-4: column 1 of row 0, and every row of the block. -/
theorem test_itx4_column : rbufAfter 5 (.itx4 12 4) (start (unitAt 16 1 10)) = some [13, 5, -5, -13, 13] := by decide
/-- X4-5: row 1 of column 0. -/
theorem test_itx4_row : rbufAfter 5 (.itx4 12 4) (start (unitAt 16 4 10)) = some [13, 13, 13, 13, 5] := by decide
/-- 42_itx2d_ops.md R147. -/
theorem test_itx8 : rbufAfter 2 (.itx8 12 8) (start (unitAt 64 0 16)) = some [16, 16] := by decide
/-- R148: `TBUF[y] = TM16[0][y] * c`. -/
theorem test_itx16_tbuf : tbufAfter 3 (.itx16 0 16) (start (unitAt 256 0 3)) = some [-300, -294, -288] := by decide
/-- R154 c with `c` at row 2, column 1, shift 4: `asr(TM16[1][0] * TM16[2][0] * c + 8, 4)`, that is `asr(-99 * -98 + 8, 4)`. -/
theorem test_itx16 : rbufAfter 1 (.itx16 4 16) (start (unitAt 256 33 1)) = some [606] := by decide
/-- R149, the vertical half on column 0: `TBUF[y] = TM32[1][y]` for `C[1][0] = 1`. -/
theorem test_itx32_tbuf : tbufAfter 2 (.itx32 0 32) (start (unitAt 1024 32 1)) = some [-99, -97] := by decide
/-- R150: the command completes, and its vertical half on column 0 is a zero column. -/
theorem test_itx64_tbuf : tbufAfter 2 (.itx64 19 64)
    { start [] with cbuf := (List.range 64).map fun r => (64 * r, 0#16) } = some [0, 0] := by decide

/-! ### Faults and host operations: one step each -/

/-- The state after one step. -/
def after (s : State) : Option State := outState (step s)

/-- P1: DONE, and CMD holds the word. -/
theorem test_step_done : (after (before (.writeReg .cmd 0x00020219#32) (start [100, -20, 7, 3]))).map
    (fun t => (t.status, t.cmd, t.ci, t.readRbuf 1)) = some (0x01#32, 0x00020219#32, 1, 31) := by decide
/-- P3 step 8: BAD_LINE is code 3, DONE is cleared. -/
theorem test_step_badLine : (after (before (.writeReg .cmd 0x00030019#32) { start [] with status := 0x01#32 })).map
    (fun t => (t.status, t.cmd)) = some (0x32#32, 0x00030019#32) := by decide
/-- 60_exceptions.md R160: codes 1, 2 and 4. -/
theorem test_step_illegalCmd : (after (before (.writeReg .cmd 0#32) (start []))).map (·.status) = some 0x12#32 := by decide
theorem test_step_badSize : (after (before (.writeReg .cmd 0x0002001F#32) (start []))).map (·.status) = some 0x22#32 := by decide
theorem test_step_badRange : (after (before (.writeReg .cmd 0x00020019#32) (withRange 1 0 (start [])))).map (·.status) =
    some 0x42#32 := by decide
/-- R161: BAD_LINE comes before BAD_RANGE. -/
theorem test_step_priority : (after (before (.writeReg .cmd 0x00030019#32) (withRange 1 0 (start [])))).map (·.status) =
    some 0x32#32 := by decide
/-- P3 steps 10, 11 and 12: ignored in the FAULT state. -/
theorem test_fault_ignores_st : (after (before (.writeCbuf 0 9) faulted)).map (·.readCbuf 0) = some 1 := by decide
theorem test_fault_ignores_wr : (after (before (.writeReg .omax 5) faulted)).map (·.omax) = some 0x00007FFF#32 := by decide
theorem test_fault_ignores_cmd : (after (before (.writeReg .cmd 0x00020019#32) faulted)).map (fun t => (t.cmd, t.status)) =
    some (0x00030019#32, 0x32#32) := by decide
/-- P3 steps 13 and 15: reads work in the FAULT state. -/
theorem test_fault_reads_cmd : (after (before (.readReg .cmd) faulted)).map (·.reply) =
    some (some (.register 0x00030019#32)) := by decide
theorem test_fault_reads_cbuf : (after (before (.readBuf .cbuf 0) faulted)).map (·.reply) = some (some (.element 1)) := by decide
/-- P3 step 16. -/
theorem test_reset : (after (before .reset faulted)).map (fun t => (t.cmd, t.status, t.omin, t.omax)) =
    some (0#32, 0#32, 0xFFFF8000#32, 0x00007FFF#32) := by decide
/-- 43_host_ops.md R155: `st CBUF[5], -7`. -/
theorem test_st : (after (before (Statement.op (.st .cbuf 5 (-7))) (start []))).map (·.readCbuf 5) = some (-7) := by decide
theorem test_st_tbuf_rbuf : (after (before (.writeTbuf 4095 (-1)) (start []))).map (·.readTbuf 4095) = some (-1) ∧
    (after (before (.writeRbuf 0 0x8000) (start []))).map (·.readRbuf 0) = some (-32768) := by decide
/-- R157: `wr OMIN, -512`, and a write of STATUS. -/
theorem test_wr : (after (before (Statement.op (.wrOmin (-512))) (start []))).map (·.omin) = some 0xFFFFFE00#32 ∧
    (after (before (Statement.op (.wrStatus (-1))) (start []))).map (·.status) = some 0#32 := by decide
/-- Every opcode-table word runs as the first command after reset: SHIFT and LINE are 0, so it faults BAD_LINE (R161). -/
theorem test_tableWord : (after (State.reset.withFetchWord 32 0x0000001E)).map (fun t => (t.cmd, t.status)) =
    some (0x0000001E#32, 0x32#32) := by decide
/-- The idle engine (10_state.md R181). -/
theorem test_idle : step State.reset = .next State.reset := rfl
/-- The cells stay in rising order, whatever the order of the writes. -/
theorem test_write_order : Memory.write (Memory.write (Memory.write [] 5 (1 : S16)) 2 2) 5 3 = [(2, 2), (5, 3)] := by decide

/-! ### One witness for the hypotheses of each statement -/

/-- EncodeInvertsDecode. -/
theorem test_witness_EncodeInvertsDecode : decode 0x00040C1A#32 = .ok (.itx4 12 4) := by decide

/-- OpcodeMapSelectsTheRow, OperandFaults: a command of either shape with an illegal LINE, at both ends of the legal range. -/
theorem test_witness_illFormed : (Instr.itxh8 0 0).wellFormed = false ∧ (Instr.itxv64 0 65).wellFormed = false ∧
    (Instr.itx8 0 7).wellFormed = false ∧ (Instr.itx8 0 9).wellFormed = false := by decide

/-- DecodeFollowsTheProcedure: a word in each branch, the bad sizes at both ends and the good ones next to them. -/
theorem test_witness_DecodeFollowsTheProcedure :
    (0x20 / 2 ^ 5 % 8 ≠ 0) ∧ (0x8000 / 2 ^ 13 % 8 ≠ 0) ∧ (0x80000000 / 2 ^ 23 ≠ 0) ∧ (0x00070007 / 2 ^ 3 % 4 = 0) ∧
    decode 0x00000018#32 = .error .badSize ∧ decode 0x0000001F#32 = .error .badSize ∧
    decode 0x00000019#32 = .ok (.itx2 0 0) ∧ decode 0x007F1F1E#32 = .ok (.itx64 31 127) := by decide

/-- StepRunsTheDecodedCommand, CommandChecksInOrder. -/
theorem test_witness_StepRunsTheDecodedCommand : ∃ (s : State) (rest : List HostOp),
    s.ops = .writeReg .cmd 0x00040C1A#32 :: rest ∧ s.status.getLsbD 1 = false ∧
      decode 0x00040C1A#32 = .ok (.itx4 12 4) :=
  ⟨before (.writeReg .cmd 0x00040C1A#32) (start []), [], rfl, by decide, by decide⟩

/-- PlacedWordRunsItsCommand. -/
theorem test_witness_PlacedWordRunsItsCommand : decodeTableWord 32 0x0000001E = some (.itx64 0 0) ∧
    State.reset.status.getLsbD 1 = false := by decide

/-- CommandChecksInOrder: STATUS after a word in each branch, LINE at the edges of its range, and OMAX one below OMIN. -/
theorem test_witness_CommandChecksInOrder_branches :
    let run (w : Word) (s : State) := (after (before (.writeReg .cmd w) s)).map (·.status)
    run 0x00020039#32 (start []) = some 0x12#32 ∧ run 0x00020001#32 (start []) = some 0x12#32 ∧
    run 0x00020018#32 (start []) = some 0x22#32 ∧ run 0x00000009#32 (start []) = some 0x32#32 ∧
    run 0x00410009#32 (start []) = some 0x32#32 ∧ run 0x00010019#32 (start []) = some 0x32#32 ∧
    run 0x00010011#32 (withRange 1 0 (start [])) = some 0x42#32 ∧
    run 0x00400009#32 (withRange 1 0 (start [])) = some 0x01#32 ∧
    run 0x00010011#32 (withRange 0 0 (start [])) = some 0x01#32 := by decide

/-- FaultStateIgnoresWrites, HostReadsReturnCurrentValues, HostWritesOneElement, HostWritesTheRange, CommandIndexCounts,
RegistersAfterReset, BuffersRedrawnAtReset: any operation can be the next, in the FAULT state and out of it. -/
theorem test_witness_nextOperation (op : HostOp) :
    ((before op faulted).ops = op :: [] ∧ (before op faulted).status.getLsbD 1 = true) ∧
    ((before op (start [])).ops = op :: [] ∧ (before op (start [])).status.getLsbD 1 = false) :=
  ⟨⟨rfl, show (0x32#32).getLsbD 1 = true by decide⟩, rfl, show (0#32).getLsbD 1 = false by decide⟩

/-- FaultStateIgnoresWrites: operations that are not reset. -/
theorem test_witness_FaultStateIgnoresWrites : HostOp.writeReg .cmd 0x00020019#32 ≠ .reset ∧
    HostOp.readBuf .rbuf 4095 ≠ .reset := by decide

/-- OnlyResetLeavesTheFaultState: the two outcomes. -/
theorem test_witness_OnlyResetLeavesTheFaultState :
    (after (before .reset faulted)).map (·.status.getLsbD 1) = some false ∧
    (after (before (.writeReg .omin 0) faulted)).map (·.status.getLsbD 1) = some true := by decide

/-- VariantHasNoEffect: both of its clauses. -/
theorem test_witness_VariantHasNoEffect : (∃ rest, (before .reset (start [])).ops = .reset :: rest) ∧
    ¬∃ rest, (before (.readReg .cmd) (start [])).ops = .reset :: rest :=
  ⟨⟨[], rfl⟩, fun ⟨_, h⟩ => by cases h⟩

/-- HostWritesOneElement: the first and the last element. -/
theorem test_witness_HostWritesOneElement :
    (after (before (.writeCbuf 0 0x7FFF) (start []))).map (·.readCbuf 0) = some 32767 ∧
    (after (before (.writeTbuf 0xFFF 0x80000000) (start []))).map (·.readTbuf 4095) = some (-2147483648) := by decide

/-- CommandIndexCounts, VariantHasNoEffect: the idle engine. -/
theorem test_witness_idle : (start []).ops = [] := rfl

/-- FaultingCommandWritesNoBuffer, OnlyCommandsWriteStatus, RomNeverChanges: a step that enters the FAULT state. -/
theorem test_witness_FaultingCommandWritesNoBuffer : ∃ s t : State, step s = .next t ∧
    s.status.getLsbD 1 = false ∧ t.status.getLsbD 1 = true :=
  ⟨before (.writeReg .cmd 0#32) (start []), _, rfl, by decide, by decide⟩

/-- OperandFaults: the two clauses about a legal command, OMAX one below OMIN and equal to it. -/
theorem test_witness_OperandFaults :
    (withRange 1 0 (start [])).omax.toInt < (withRange 1 0 (start [])).omin.toInt ∧
    (withRange 0 0 (start [])).omin.toInt ≤ (withRange 0 0 (start [])).omax.toInt ∧
    (Instr.itx2 0 2).line.toNat = (Instr.itx2 0 2).size ∧ (Instr.itxh2 0 64).line.toNat = 64 := by decide

/-- VerticalTwoTapResult, VerticalTableResult: LINE at both ends of its range. -/
theorem test_witness_VerticalResults : 1 ≤ (1 : Line).toNat ∧ (1 : Line).toNat ≤ 64 ∧ 1 ≤ (64 : Line).toNat ∧
    (64 : Line).toNat ≤ 64 := by decide

/-- HorizontalTwoTapResult, HorizontalTableResult: and the reset range, and a range of one value. -/
theorem test_witness_HorizontalResults : 1 ≤ (64 : Line).toNat ∧ (64 : Line).toNat ≤ 64 ∧
    State.reset.omin.toInt ≤ State.reset.omax.toInt ∧
    (withRange 7 7 (start [])).omin.toInt ≤ (withRange 7 7 (start [])).omax.toInt := by decide

/-- TwoDTwoTapResult, TwoDClosedForm. -/
theorem test_witness_TwoDResults : (2 : Line).toNat = 2 ∧ (4 : Line).toNat = 4 ∧ (8 : Line).toNat = 8 ∧
    (16 : Line).toNat = 16 ∧ (32 : Line).toNat = 32 ∧ (64 : Line).toNat = 64 ∧
    State.reset.omin.toInt ≤ State.reset.omax.toInt := by decide

/-- TwoDIsTheSeparableProduct: X2-1's block, whose product at (0, 0) is 10. -/
theorem test_witness_TwoDIsTheSeparableProduct :
    (Instr.itx2 0 2).vertical = true ∧ (Instr.itx2 0 2).horizontal = true ∧
    (Instr.itx2 0 2).line.toNat = (Instr.itx2 0 2).size ∧
    (start [1, 2, 3, 4]).omin.toInt ≤ (start [1, 2, 3, 4]).omax.toInt ∧
    (∑ r ∈ Finset.range 2, ∑ c ∈ Finset.range 2,
      basis testRom 2 r 0 * (start [1, 2, 3, 4]).readCbuf (r * 2 + c) * basis testRom 2 c 0) = 10 := by decide

/-- The exact product at (0, 0) of a 4 by 4 block under a table whose column 0 is -128, -128, 1, 0. -/
def productAt0 (block : List Int) : Int :=
  let s := { start block with rom := { testRom with tm4 := tableOf 4 [[-128], [-128], [1], [0]] } }
  ∑ r ∈ Finset.range 4, ∑ c ∈ Finset.range 4, basis s.rom 4 r 0 * s.readCbuf (r * 4 + c) * basis s.rom 4 c 0

/-- TwoDIsTheSeparableProduct: the product meets both bounds of its premise. It is 16384 * (sum of four elements), and above,
-128 * -256 and 32767 more. -/
theorem test_witness_TwoDIsTheSeparableProduct_bounds :
    productAt0 [32767, 32767, -256, 0, 32767, 32767, 0, 0, 0, 0, 32767, 0, 0, 0, 0, 0] = 2147483647 ∧
    productAt0 [-32768, -32768, 0, 0, -32768, -32768, 0, 0, 0, 0, 0, 0, 0, 0, 0, 0] = -2147483648 := by decide

/-- TwoDIsVerticalThenHorizontal: both of its clauses. -/
theorem test_witness_TwoDIsVerticalThenHorizontal :
    let i := Instr.itx4 12 4
    let j := Instr.itxv4 0 4
    let k := Instr.itxh4 12 4
    (i.vertical = true ∧ i.horizontal = true ∧ j.horizontal = false ∧ k.vertical = false) ∧
    (j.size = i.size ∧ k.size = i.size ∧ i.line.toNat = i.size ∧ j.line.toNat = i.size ∧ k.line.toNat = i.size) ∧
    k.shift = i.shift ∧ (start []).status.getLsbD 1 = false ∧ (withRange 1 0 (start [])).status.getLsbD 1 = false ∧
    (start []).omin.toInt ≤ (start []).omax.toInt ∧
    (withRange 1 0 (start [])).omax.toInt < (withRange 1 0 (start [])).omin.toInt := by decide

/-- RectangularBlockFromTwoPasses: P5. -/
theorem test_witness_RectangularBlockFromTwoPasses :
    (Instr.itxv4 0 2).horizontal = false ∧ (Instr.itxh2 6 4).vertical = false ∧
    (Instr.itxv4 0 2).line.toNat = (Instr.itxh2 6 4).size ∧ (Instr.itxh2 6 4).line.toNat = (Instr.itxv4 0 2).size ∧
    (start []).omin.toInt ≤ (start []).omax.toInt := by decide

/-- VerticalClampNeverActs, RegionInsideTheBuffer: the largest pass. -/
theorem test_witness_VerticalClampNeverActs : (Instr.itxv64 0 64).vertical = true ∧
    (Instr.itxv64 0 64).wellFormed = true ∧ (Instr.itxv64 0 64).horizontal = false ∧
    63 < (Instr.itxv64 0 64).line.toNat ∧ 63 < (Instr.itxv64 0 64).size := by decide

/-- SingleCoefficientBlock: the last element of an `ITX.2` block. -/
theorem test_witness_SingleCoefficientBlock :
    (Instr.itx2 0 2).vertical = true ∧ (Instr.itx2 0 2).horizontal = true ∧
    (Instr.itx2 0 2).line.toNat = (Instr.itx2 0 2).size ∧
    (start [0, 0, 0, 5]).omin.toInt ≤ (start [0, 0, 0, 5]).omax.toInt ∧ 1 < (Instr.itx2 0 2).size ∧
    ∀ e < 2 * 2, e ≠ 1 * 2 + 1 → (start [0, 0, 0, 5]).readCbuf e = 0 := by decide

/-- CommandFrame: a command that completes, and one that faults. -/
theorem test_witness_CommandFrame : ∃ s t u : State, exec (.itxv2 0 64) s = .next t ∧ exec (.itxv2 0 0) s = .next u :=
  ⟨start [], _, _, rfl, rfl⟩

/-- ReadSetDeterminesResult: two states that differ outside the read set, one before any command and one after a command. -/
theorem test_witness_ReadSetDeterminesResult :
    let s := start [3, 5]
    let s' := { start [3, 5, 7] [9] with status := 0x01#32 }
    s'.rom = s.rom ∧ s'.omin = s.omin ∧ s'.omax = s.omax ∧ s'.readCbuf 2 = 7 ∧
    (∀ e < (Instr.itxv2 0 1).size * (Instr.itxv2 0 1).line.toNat, s'.readCbuf e = s.readCbuf e) ∧
    (Instr.itxv2 0 1).vertical = true ∧ (Instr.itxv2 0 1).wellFormed = true ∧
    s.status = 0x00#32 ∧ s'.status = 0x01#32 := ⟨rfl, by decide⟩

/-- ReadSetDeterminesResult: STATUS 0x00 and 0x01 meet the premises of its clause on STATUS. -/
theorem test_witness_ReadSetDeterminesResult_status :
    (0x00#32).getLsbD 1 = false ∧ (0x01#32).getLsbD 1 = false ∧
    ∀ k, 2 ≤ k → (0x01#32).getLsbD k = (0x00#32).getLsbD k := by
  refine ⟨by decide, by decide, fun k hk => ?_⟩
  simp [BitVec.getLsbD_one]; omega

/-- ReadSetDeterminesResult, horizontal: the read set is in TBUF, and CBUF differs. -/
theorem test_witness_ReadSetDeterminesResult_horizontal :
    let s := start [] [5, 2]
    let s' := start [1] [5, 2]
    s'.rom = s.rom ∧ s'.omin = s.omin ∧ s'.omax = s.omax ∧ s'.readCbuf 0 = 1 ∧
    (∀ e < (Instr.itxh2 1 1).size * (Instr.itxh2 1 1).line.toNat, s'.readTbuf e = s.readTbuf e) ∧
    (Instr.itxh2 1 1).vertical = false ∧ (Instr.itxh2 1 1).wellFormed = true ∧
    s.omin.toInt ≤ s.omax.toInt := ⟨rfl, by decide⟩

/-- LinesAreIndependent, vertical clause: line 2 of V2-8. -/
theorem test_witness_LinesAreIndependent_vertical :
    let i := Instr.itxv2 0 3
    let j := Instr.itxv2 0 1
    let s := start [1, 2, 3, 10, 20, 30]
    let s' := start [3, 30]
    s'.rom = s.rom ∧ (j.size = i.size ∧ j.shift = i.shift ∧ j.line.toNat = 1 ∧ i.line.toNat ≤ 64 ∧ 2 < i.line.toNat) ∧
    (s'.omin = s.omin ∧ s'.omax = s.omax ∧ i.horizontal = false ∧ j.horizontal = false) ∧
    ∀ e < i.size, s'.readCbuf e = s.readCbuf (e * i.line.toNat + 2) := ⟨rfl, by decide⟩

/-- LinesAreIndependent, horizontal clause: line 1 of H2-19. -/
theorem test_witness_LinesAreIndependent_horizontal :
    let i := Instr.itxh2 1 2
    let j := Instr.itxh2 1 1
    let s := start [] [5, -7, 2, 4]
    let s' := start [] [-7, 4]
    s'.rom = s.rom ∧ (j.size = i.size ∧ j.shift = i.shift ∧ j.line.toNat = 1 ∧ i.line.toNat ≤ 64 ∧ 1 < i.line.toNat) ∧
    (s'.omin = s.omin ∧ s'.omax = s.omax ∧ i.vertical = false ∧ j.vertical = false) ∧
    s.omin.toInt ≤ s.omax.toInt ∧
    ∀ e < i.size, s'.readTbuf e = s.readTbuf (e * i.line.toNat + 1) := ⟨rfl, by decide⟩

/-- ZeroInZeroOut: a zero block and the range of the one value 0; a zero TBUF. -/
theorem test_witness_ZeroInZeroOut :
    let s := withRange 0 0 (start [0, 0, 0, 0] [0, 0])
    (Instr.itx2 31 2).wellFormed = true ∧ (s.omin.toInt ≤ 0 ∧ 0 ≤ s.omax.toInt) ∧
    (∀ e < (Instr.itx2 31 2).size * (Instr.itx2 31 2).line.toNat, s.readCbuf e = 0) ∧
    (Instr.itxh2 31 1).wellFormed = true ∧
    (∀ e < (Instr.itxh2 31 1).size * (Instr.itxh2 31 1).line.toNat, s.readTbuf e = 0) := by decide

/-- OnlyCommandsWriteStatus: an operation that is neither a command nor reset. -/
theorem test_witness_OnlyCommandsWriteStatus : (∀ w, HostOp.writeReg .omin 5 ≠ .writeReg .cmd w) ∧
    HostOp.writeReg .omin 5 ≠ .reset := by
  constructor <;> simp

/-- ButterflyEqualsMatrixProduct: a table that satisfies SYM and is not symmetric as a matrix. -/
theorem test_witness_ButterflyEqualsMatrixProduct : TableSym (tableEntry g4) 2 ∧ 3 < 2 ^ 2 := by decide

/-- KernelBounds: inputs at the ends of their ranges. -/
theorem test_witness_KernelBounds :
    (∀ j < 2, (-(2 ^ 15) : Int) ≤ [-(2 ^ 15), 2 ^ 15 - 1].getD j 0 ∧ [-(2 ^ 15), 2 ^ 15 - 1].getD j 0 < (2 ^ 15 : Int)) ∧
    (∀ j < 2, (-(2 ^ 31) : Int) ≤ [-(2 ^ 31), 2 ^ 31 - 1].getD j 0 ∧ [-(2 ^ 31), 2 ^ 31 - 1].getD j 0 < (2 ^ 31 : Int)) ∧
    (∀ j < 2, |([-(2 ^ 23), 2 ^ 23] : List Int).getD j 0| ≤ 2 * 2 ^ 22) := by decide

/-- ClampReadingsAgreeInRange: both ends of the range in which they agree. -/
theorem test_witness_ClampReadingsAgreeInRange :
    ((-2147483648 : Int) ≤ -2147483648 ∧ -2147483648 + addOf 31 ≤ 2147483647) ∧
    ((-2147483648 : Int) ≤ 1073741823 ∧ 1073741823 + addOf 31 = 2147483647) := by decide

/-- StoredValuesNeverWrap: a range for each clause, at its boundary. -/
theorem test_witness_StoredValuesNeverWrap :
    ((-32768 : Int) ≤ 32767) ∧ (max (32767 : Int) (-32768) ≤ min 40000 32767) ∧
    ((-40000 : Int) ≤ -32769 ∧ (-32769 : Int) < -32768) ∧ ((32768 : Int) ≤ 40000 ∧ (32767 : Int) < 32768) := by decide

/-- StepKeepsTheInvariant, StatusTakesSixValues: a state that satisfies the invariant with each of the six values. -/
theorem test_witness_Inv :
    (start [1, 2]).Inv ∧ { start [1] with status := 0x01#32, cmd := 0x00020019#32 : State }.Inv ∧
    { start [] with status := 0x12#32, cmd := 0x00020039#32 : State }.Inv ∧
    { start [] with status := 0x22#32, cmd := 0x0002001F#32 : State }.Inv ∧ faulted.Inv ∧
    { withRange 1 0 (start []) with status := 0x42#32, cmd := 0x00020019#32 : State }.Inv := by
  refine ⟨⟨?_, ?_⟩, ⟨?_, ?_⟩, ⟨?_, ?_⟩, ⟨?_, ?_⟩, ⟨?_, ?_⟩, ?_, ?_⟩ <;> decide

end Sys2Proof.Tests
end

section
/-! PROOFS. What one host operation can do to the machine, said once, and the statements about the state that follow from it. -/

namespace Sys2Proof.Machine

variable {s t : State}

/-! ### The values STATUS takes -/

/-- The six values of STATUS, each with what it says of the word in CMD (93_implementation_defined.md U8). -/
inductive State.StatusCase (s : State) : Prop where
  | clear (hs : s.status = 0x00#32) (hc : s.cmd = 0#32)
  | done {i : Instr} (hs : s.status = 0x01#32) (hd : decode s.cmd = .ok i) (hw : i.wellFormed = true)
  | illegalCmd (hs : s.status = 0x12#32) (hd : decode s.cmd = .error .illegalCmd)
  | badSize (hs : s.status = 0x22#32) (hd : decode s.cmd = .error .badSize)
  | badLine {i : Instr} (hs : s.status = 0x32#32) (hd : decode s.cmd = .ok i) (hw : i.wellFormed = false)
  | badRange {i : Instr} (hs : s.status = 0x42#32) (hd : decode s.cmd = .ok i) (hw : i.wellFormed = true)
      (hh : i.horizontal = true) (hr : s.omax.toInt < s.omin.toInt)

theorem decode_zero : decode 0#32 = .error .illegalCmd := by decide

theorem statusTruthful_iff (s : State) : s.statusTruthful = true ↔ s.StatusCase := by
  constructor
  · intro h
    unfold State.statusTruthful at h
    split at h
    next hd =>
      simp only [Bool.or_eq_true, Bool.and_eq_true, beq_iff_eq] at h
      obtain hs | ⟨hs, hc⟩ := h
      · exact .illegalCmd hs hd
      · exact .clear hs hc
    next hd => exact .badSize (beq_iff_eq.mp h) hd
    next i hd =>
      split at h
      next hw =>
        simp only [Bool.or_eq_true, Bool.and_eq_true, beq_iff_eq, decide_eq_true_eq] at h
        obtain hs | ⟨⟨hs, hh⟩, hr⟩ := h
        · exact .done hs hd hw
        · exact .badRange hs hd hw hh hr
      next hw => exact .badLine (beq_iff_eq.mp h) hd (Bool.eq_false_iff.mpr hw)
  · intro h
    cases h with
    | clear hs hc => simp [State.statusTruthful, hs, hc, decode_zero]
    | done hs hd hw => simp [State.statusTruthful, hs, hd, hw]
    | illegalCmd hs hd => simp [State.statusTruthful, hs, hd]
    | badSize hs hd => simp [State.statusTruthful, hs, hd]
    | badLine hs hd hw => simp [State.statusTruthful, hs, hd, hw]
    | badRange hs hd hw hh hr => simp [State.statusTruthful, hs, hd, hw, hh, hr]

/-- The four values with FAULT set are excluded outside the FAULT state. -/
theorem State.StatusCase.status_of_not_faulted (h : s.StatusCase) (hf : s.faulted = false) :
    s.status = 0x00#32 ∨ s.status = 0x01#32 := by
  have excluded {c : Word} (hs : s.status = c) (hc : statusFault c = true) : False := by
    simp [State.faulted, hs, hc] at hf
  cases h with
  | clear hs => exact .inl hs
  | done hs => exact .inr hs
  | illegalCmd hs => exact (excluded hs rfl).elim
  | badSize hs => exact (excluded hs rfl).elim
  | badLine hs => exact (excluded hs rfl).elim
  | badRange hs => exact (excluded hs rfl).elim

/-- Outside the FAULT state nothing STATUS says depends on OMIN or OMAX, so the host may write them. -/
theorem State.StatusCase.congr_of_not_faulted (h : s.StatusCase) (hf : s.faulted = false) (hc : t.cmd = s.cmd)
    (ht : t.status = s.status) : t.StatusCase := by
  have hclear := h.status_of_not_faulted hf
  cases h with
  | clear hs hz => exact .clear (ht.trans hs) (hc.trans hz)
  | done hs hd hw => exact .done (ht.trans hs) (hc ▸ hd) hw
  | illegalCmd hs => simp [hs] at hclear
  | badSize hs => simp [hs] at hclear
  | badLine hs => simp [hs] at hclear
  | badRange hs => simp [hs] at hclear

/-- The reset values of CMD and STATUS and empty buffers satisfy the invariant (10_state.md R39). -/
theorem inv_of_reset_values (hc : s.cmd = 0#32) (hs : s.status = 0x00#32) (hcb : s.cbuf = []) (htb : s.tbuf = [])
    (hrb : s.rbuf = []) : s.Inv :=
  ⟨by rw [buffersCanonical_iff, hcb, htb, hrb]; exact ⟨rfl, rfl, rfl⟩, (statusTruthful_iff s).mpr (.clear hs hc)⟩

/-! ### What a command does -/

/-- A command writes no field but STATUS, TBUF and RBUF (20_memory.md R57). -/
theorem exec_writes {i : Instr} (h : exec i s = .next t) :
    t = { s with status := t.status, tbuf := t.tbuf, rbuf := t.rbuf } := by
  obtain ⟨-, he⟩ | ⟨-, -, -, he⟩ | ⟨-, -, -, he⟩ | ⟨-, -, -, -, he⟩ | ⟨-, -, -, -, -, he⟩ := exec_cases i s <;>
    cases he.symm.trans h <;> rfl

theorem size_le_64 (i : Instr) : i.size ≤ 64 := by
  have := size_mem i; omega

/-- The region of a legal single pass lies inside its buffer (20_memory.md R58). -/
theorem region_of_wellFormed {i : Instr} (hw : i.wellFormed = true)
    (hs : i.vertical = false ∨ i.horizontal = false) : i.line.toNat * i.size ≤ Config.bufDepth :=
  region_le_bufDepth (size_le_64 i) ((wellFormed_single hs).mp hw).2

theorem exec_buffersCanonical {i : Instr} (h : exec i s = .next t) (hb : s.buffersCanonical = true) :
    t.buffersCanonical = true := by
  obtain ⟨-, he⟩ | ⟨-, -, -, he⟩ | ⟨hw, -, hh, he⟩ | ⟨hw, hv, -, -, he⟩ | ⟨-, -, -, -, -, he⟩ := exec_cases i s <;>
    cases he.symm.trans h
  · exact hb
  · exact hb
  · exact buffersCanonical_passV hb (region_of_wellFormed hw (.inr hh))
  · exact buffersCanonical_passH _ _ _ hb (region_of_wellFormed hw (.inl hv))
  · have hsquare := region_le_bufDepth (size_le_64 i) (size_le_64 i)
    exact buffersCanonical_passH _ _ _ (buffersCanonical_passV hb hsquare) hsquare

/-- A command that runs outside the FAULT state leaves STATUS telling how it ended (60_exceptions.md R161, R163). -/
theorem exec_statusCase {i : Instr} (h : exec i s = .next t) (hs : s.status = 0x00#32 ∨ s.status = 0x01#32)
    (hd : decode s.cmd = .ok i) : t.StatusCase := by
  obtain ⟨-, -, hline, hrange⟩ := withFault_of_clear hs
  obtain ⟨hw, he⟩ | ⟨hw, hh, hr, he⟩ | ⟨hw, -, -, he⟩ | ⟨hw, -, -, -, he⟩ | ⟨hw, -, -, -, -, he⟩ := exec_cases i s <;>
    cases he.symm.trans h
  · exact .badLine hline hd hw
  · exact .badRange hrange hd hw hh hr
  all_goals exact .done (withDone_of_clear hs) hd hw

/-! ### The write of CMD -/

/-- Everything a write of CMD can do: be ignored, take a decode fault, or run a command (43_host_ops.md R159). -/
theorem issueCommand_cases {w : Word} (h : issueCommand w s = .next t) :
    (s.faulted = true ∧ t = s) ∨
    (s.faulted = false ∧ ∃ e, decode w = .error e ∧ t = State.raiseFault (decodeCause e) { s with cmd := w }) ∨
    (s.faulted = false ∧ ∃ i, decode w = .ok i ∧ exec i { s with cmd := w } = .next t) := by
  cases hf : s.faulted with
  | true => cases (issueCommand_faulted w hf).symm.trans h; exact .inl ⟨rfl, rfl⟩
  | false =>
    cases hd : decode w with
    | error e => cases (issueCommand_rejected hf hd).symm.trans h; exact .inr (.inl ⟨rfl, e, rfl, rfl⟩)
    | ok i => exact .inr (.inr ⟨rfl, i, rfl, (issueCommand_decoded hf hd).symm.trans h⟩)

/-- A write of CMD that is not ignored leaves its word in CMD (10_state.md R28). -/
theorem issueCommand_cmd {w : Word} (h : issueCommand w s = .next t) (hf : s.faulted = false) : t.cmd = w := by
  obtain ⟨hf', -⟩ | ⟨-, e, -, rfl⟩ | ⟨-, i, -, he⟩ := issueCommand_cases h
  · simp [hf] at hf'
  · rfl
  · exact congrArg State.cmd (exec_writes he)

/-- A write of CMD writes no field but CMD, STATUS, TBUF and RBUF. -/
theorem issueCommand_writes {w : Word} (h : issueCommand w s = .next t) :
    t = { s with cmd := t.cmd, status := t.status, tbuf := t.tbuf, rbuf := t.rbuf } := by
  obtain ⟨-, rfl⟩ | ⟨-, e, -, rfl⟩ | ⟨hf, i, -, he⟩ := issueCommand_cases h
  · rfl
  · rfl
  · rw [issueCommand_cmd h hf]; exact exec_writes he

/-- A rejected word leaves STATUS naming the decode check that failed (60_exceptions.md R161, checks 1 and 2). -/
theorem raiseFault_statusCase {e : DecodeError} (hs : s.status = 0x00#32 ∨ s.status = 0x01#32)
    (hd : decode s.cmd = .error e) : (s.raiseFault (decodeCause e)).StatusCase := by
  obtain ⟨hillegal, hsize, -, -⟩ := withFault_of_clear hs
  cases e with
  | illegalCmd => exact .illegalCmd hillegal hd
  | badSize => exact .badSize hsize hd

theorem issueCommand_inv {w : Word} (hi : s.Inv) (h : issueCommand w s = .next t) : t.Inv := by
  obtain ⟨hb, hs⟩ := hi
  rw [statusTruthful_iff] at hs
  obtain ⟨-, rfl⟩ | ⟨hf, e, hd, rfl⟩ | ⟨hf, i, hd, he⟩ := issueCommand_cases h
  · exact ⟨hb, (statusTruthful_iff t).mpr hs⟩
  · exact ⟨hb, (statusTruthful_iff _).mpr (raiseFault_statusCase (hs.status_of_not_faulted hf) hd)⟩
  · exact ⟨exec_buffersCanonical he hb, (statusTruthful_iff t).mpr (exec_statusCase he (hs.status_of_not_faulted hf) hd)⟩

/-! ### The other host operations -/

/-- What every host operation but a write of CMD and reset has in common: the registers a command owns, the ROM and the
host's position stay, the range stays in the FAULT state (60_exceptions.md R165), canonical buffers stay canonical. -/
structure State.QuietTo (s t : State) : Prop where
  cmd : t.cmd = s.cmd
  status : t.status = s.status
  rom : t.rom = s.rom
  ops : t.ops = s.ops
  ci : t.ci = s.ci
  range : s.faulted = true → t.omin = s.omin ∧ t.omax = s.omax
  canonical : s.buffersCanonical = true → t.buffersCanonical = true

/-- Setting what the host was returned is quiet. -/
theorem quietTo_reply (s : State) (r : Option HostReply) : s.QuietTo { s with reply := r } :=
  ⟨rfl, rfl, rfl, rfl, rfl, fun _ => ⟨rfl, rfl⟩, id⟩

/-- A host write is quiet when the state it would reach keeps those fields and the canonical form. -/
theorem quietTo_unlessFaulted (hc : t.cmd = s.cmd) (hs : t.status = s.status) (hr : t.rom = s.rom) (ho : t.ops = s.ops)
    (hn : t.ci = s.ci) (hb : s.buffersCanonical = true → t.buffersCanonical = true) :
    s.QuietTo (s.unlessFaulted t) := by
  cases hf : s.faulted with
  | true => rw [unlessFaulted_of_faulted t hf]; exact quietTo_reply s s.reply
  | false => rw [unlessFaulted_of_not t hf]; exact ⟨hc, hs, hr, ho, hn, by simp [hf], hb⟩

theorem storeCbuf_quiet (i : BufIndex) (v : S16) (s : State) : s.QuietTo (s.storeCbuf i v) :=
  quietTo_unlessFaulted rfl rfl rfl rfl rfl fun hb => by
    obtain ⟨hc, ht, hr⟩ := (buffersCanonical_iff s).mp hb
    exact (buffersCanonical_iff _).mpr ⟨wf_write v hc i.isLt, ht, hr⟩

theorem storeTbuf_quiet (i : BufIndex) (v : S32) (s : State) : s.QuietTo (s.storeTbuf i v) :=
  quietTo_unlessFaulted rfl rfl rfl rfl rfl fun hb => by
    obtain ⟨hc, ht, hr⟩ := (buffersCanonical_iff s).mp hb
    exact (buffersCanonical_iff _).mpr ⟨hc, wf_write v ht i.isLt, hr⟩

theorem storeRbuf_quiet (i : BufIndex) (v : S16) (s : State) : s.QuietTo (s.storeRbuf i v) :=
  quietTo_unlessFaulted rfl rfl rfl rfl rfl fun hb => by
    obtain ⟨hc, ht, hr⟩ := (buffersCanonical_iff s).mp hb
    exact (buffersCanonical_iff _).mpr ⟨hc, ht, wf_write v hr i.isLt⟩

/-- Everything a host operation can do: write CMD, reset, or be quiet. -/
theorem hostOp_cases {op : HostOp} (h : hostOp op s = .next t) :
    (∃ w, op = .writeReg .cmd w ∧ issueCommand w s = .next t) ∨ (op = .reset ∧ t = s.resetFrom) ∨ s.QuietTo t := by
  cases op with
  | writeReg r w =>
    cases r with
    | cmd => exact .inl ⟨w, rfl, h⟩
    | status => cases h; exact .inr (.inr (quietTo_reply s s.reply))
    | omin => cases h; exact .inr (.inr (quietTo_unlessFaulted rfl rfl rfl rfl rfl id))
    | omax => cases h; exact .inr (.inr (quietTo_unlessFaulted rfl rfl rfl rfl rfl id))
  | readReg r => cases h; exact .inr (.inr (quietTo_reply s _))
  | writeCbuf i v => cases h; exact .inr (.inr (storeCbuf_quiet i v s))
  | writeTbuf i v => cases h; exact .inr (.inr (storeTbuf_quiet i v s))
  | writeRbuf i v => cases h; exact .inr (.inr (storeRbuf_quiet i v s))
  | readBuf b i => cases h; exact .inr (.inr (quietTo_reply s _))
  | reset => cases h; exact .inr (.inl ⟨rfl, rfl⟩)

/-- No host operation writes the ROM or moves the host's position: `State.issue` alone does that (10_state.md R37, R41). -/
theorem hostOp_keeps_rom_ops_ci {op : HostOp} (h : hostOp op s = .next t) :
    t.rom = s.rom ∧ t.ops = s.ops ∧ t.ci = s.ci := by
  obtain ⟨w, -, hw⟩ | ⟨-, rfl⟩ | hq := hostOp_cases h
  · rw [issueCommand_writes hw]; exact ⟨rfl, rfl, rfl⟩
  · exact ⟨rfl, rfl, rfl⟩
  · exact ⟨hq.rom, hq.ops, hq.ci⟩

/-- A quiet operation keeps the invariant: in the FAULT state the range STATUS speaks of stays, outside it STATUS speaks of
none. -/
theorem State.QuietTo.inv (hq : s.QuietTo t) (hi : s.Inv) : t.Inv := by
  obtain ⟨hb, hs⟩ := hi
  refine ⟨hq.canonical hb, ?_⟩
  cases hf : s.faulted with
  | true =>
    obtain ⟨hl, hh⟩ := hq.range hf
    rwa [statusTruthful_congr hq.cmd hq.status hl hh]
  | false =>
    rw [statusTruthful_iff] at hs ⊢
    exact hs.congr_of_not_faulted hf hq.cmd hq.status

theorem hostOp_inv {op : HostOp} (hi : s.Inv) (h : hostOp op s = .next t) : t.Inv := by
  obtain ⟨w, -, hw⟩ | ⟨-, rfl⟩ | hq := hostOp_cases h
  · exact issueCommand_inv hi hw
  · exact inv_of_reset_values rfl rfl rfl rfl rfl
  · exact hq.inv hi

/-- Everything a step can do: nothing, or the host's next operation. -/
theorem step_cases (h : step s = .next t) :
    (s.ops = [] ∧ t = s) ∨ ∃ op rest, s.ops = op :: rest ∧ hostOp op (s.issue rest) = .next t := by
  cases ho : s.ops with
  | nil => cases (step_idle ho).symm.trans h; exact .inl ⟨rfl, rfl⟩
  | cons op rest => exact .inr ⟨op, rest, rfl, (step_issue ho).symm.trans h⟩

/-! ### The values after reset -/

theorem s16_bounds (v : S16) : -32768 ≤ v.toInt ∧ v.toInt ≤ 32767 :=
  ⟨BitVec.le_toInt v, Int.le_of_lt_add_one BitVec.toInt_lt⟩

theorem s32_bounds (v : S32) : -2147483648 ≤ v.toInt ∧ v.toInt ≤ 2147483647 :=
  ⟨BitVec.le_toInt v, Int.le_of_lt_add_one BitVec.toInt_lt⟩

/-- Every element reads as a value of its type, written or not (10_state.md R24 to R26). -/
theorem element_bounds (s : State) (i : Nat) :
    (-32768 ≤ s.readCbuf i ∧ s.readCbuf i ≤ 32767) ∧ (-2147483648 ≤ s.readTbuf i ∧ s.readTbuf i ≤ 2147483647) ∧
      (-32768 ≤ s.readRbuf i ∧ s.readRbuf i ≤ 32767) :=
  ⟨s16_bounds _, s32_bounds _, s16_bounds _⟩

theorem omin_reset_toInt : (0xFFFF8000#32).toInt = -32768 := by decide
theorem omax_reset_toInt : (0x00007FFF#32).toInt = 32767 := by decide

theorem step_reset {rest : List HostOp} (h : s.ops = .reset :: rest) : step s = .next (s.issue rest).resetFrom :=
  step_issue h

/-! ### The statements -/

/-- Settles O49: the next host operation keeps the invariant, and taking it from the host's list touches nothing the
invariant speaks of. -/
theorem stepKeepsTheInvariant : Obligations.StepKeepsTheInvariant := by
  intro s t hi h
  obtain ⟨-, rfl⟩ | ⟨op, rest, -, hop⟩ := step_cases h
  · exact hi
  · have hissue : (s.issue rest).Inv := hi
    exact hostOp_inv hissue hop

/-- Settles O17: `State.issue` counts and takes the operation, and no operation touches either field after it. -/
theorem commandIndexCounts : Obligations.CommandIndexCounts := by
  refine ⟨rfl, fun s t op rest ho h => ?_, fun s ho => step_idle ho⟩
  obtain ⟨-, hops, hci⟩ := hostOp_keeps_rom_ops_ci ((step_issue ho).symm.trans h)
  exact ⟨hci, hops⟩

/-- Settles O39, by the cases of a step. -/
theorem romNeverChanges : Obligations.RomNeverChanges := by
  intro s t h
  obtain ⟨-, rfl⟩ | ⟨op, rest, -, hop⟩ := step_cases h
  · rfl
  · exact (hostOp_keeps_rom_ops_ci hop).1

/-- Settles O40: of the three things an operation can do, only the write of CMD can set FAULT, and a quiet one keeps both
registers. -/
theorem onlyCommandsWriteStatus : Obligations.OnlyCommandsWriteStatus := by
  intro s t op rest ho h
  have hop := (step_issue ho).symm.trans h
  obtain ⟨w, rfl, hw⟩ | ⟨rfl, rfl⟩ | hq := hostOp_cases hop
  · exact ⟨fun hne => absurd rfl (hne w), fun hf _ => ⟨w, rfl, issueCommand_cmd hw hf⟩⟩
  · exact ⟨fun _ hne => absurd rfl hne, fun _ hf => absurd hf (by simp)⟩
  · refine ⟨fun _ _ => ⟨hq.status, hq.cmd⟩, fun hf hf' => ?_⟩
    have hkept : t.status = s.status := hq.status
    rw [hkept, hf] at hf'
    cases hf'

/-- Settles O50, by the six values STATUS takes. -/
theorem statusTakesSixValues : Obligations.StatusTakesSixValues := by
  intro s ⟨_, htruth⟩
  cases (statusTruthful_iff s).mp htruth with
  | clear hs => simp [hs]
  | done hs hd hw => simp [hs, hd, hw]
  | illegalCmd hs hd => simp [hs, hd]
  | badSize hs hd => simp [hs, hd]
  | badLine hs hd hw => simp [hs, hd, hw]
  | badRange hs hd hw hh hr => simp [hs, hd, hw, hh, hr]

/-- Settles O11: the register values are those of `State.reset`, and an element reads as a value of its type. -/
theorem registersAfterReset : Obligations.RegistersAfterReset :=
  ⟨⟨rfl, rfl, omin_reset_toInt, omax_reset_toInt, rfl, element_bounds _⟩, rfl, fun s rest ho =>
    ⟨(s.issue rest).resetFrom, step_reset ho,
      ⟨rfl, rfl, omin_reset_toInt, omax_reset_toInt, rfl, element_bounds _⟩, rfl, rfl, rfl⟩⟩

/-- Settles O48: CMD and STATUS are 0 and no element is written. -/
theorem resetHasTheInvariant : Obligations.ResetHasTheInvariant := inv_of_reset_values rfl rfl rfl rfl rfl

end Sys2Proof.Machine
end

section
/-! PROOFS. How far a command reaches: what each pass and each way of ending a command leaves unchanged, where the indices of
a legal command lie, and how a word that the host has placed comes to run. -/

namespace Sys2Proof.Machine

variable {s t u : State}

/-! ### The frame of a pass and of the end of a command -/

/-- A larger region is a weaker frame. -/
theorem State.SameBut.mono {a b a' b' : Nat} (h : s.SameBut t a b) (ha : a ≤ a') (hb : b ≤ b') : s.SameBut t a' b' := by
  obtain ⟨hcmd, hmin, hmax, hrom, hvar, hdraw, hops, hci, hreply, hc, ht, hr⟩ := h
  exact ⟨hcmd, hmin, hmax, hrom, hvar, hdraw, hops, hci, hreply, hc, fun i hi => ht i (ha.trans hi),
    fun i hi => hr i (hb.trans hi)⟩

/-- The frame of two updates, one after the other, is the larger of the two regions of each buffer. -/
theorem State.SameBut.trans {a b a' b' : Nat} (h : s.SameBut t a b) (h' : t.SameBut u a' b') :
    s.SameBut u (max a a') (max b b') := by
  obtain ⟨hcmd, hmin, hmax, hrom, hvar, hdraw, hops, hci, hreply, hc, ht, hr⟩ := h.mono (le_max_left a a') (le_max_left b b')
  obtain ⟨hcmd', hmin', hmax', hrom', hvar', hdraw', hops', hci', hreply', hc', ht', hr'⟩ :=
    h'.mono (le_max_right a a') (le_max_right b b')
  exact ⟨hcmd'.trans hcmd, hmin'.trans hmin, hmax'.trans hmax, hrom'.trans hrom, hvar'.trans hvar, hdraw'.trans hdraw,
    hops'.trans hops, hci'.trans hci, hreply'.trans hreply, fun i => (hc' i).trans (hc i),
    fun i hi => (ht' i hi).trans (ht i hi), fun i hi => (hr' i hi).trans (hr i hi)⟩

/-- A fault writes no buffer element (60_exceptions.md R164). -/
theorem raiseFault_sameBut (c : FaultCause) (s : State) : s.SameBut (s.raiseFault c) 0 0 :=
  ⟨rfl, rfl, rfl, rfl, rfl, rfl, rfl, rfl, rfl, fun _ => rfl, fun _ _ => rfl, fun _ _ => rfl⟩

/-- Ending a command writes STATUS, which no frame speaks of (41_pass_ops.md R134). -/
theorem State.SameBut.complete {a b : Nat} (h : s.SameBut t a b) : s.SameBut t.complete a b := h

/-- The vertical pass writes the first `n * L` elements of TBUF (20_memory.md R57, 41_pass_ops.md R132). -/
theorem passV_sameBut (n L : Nat) (s : State) : s.SameBut (passV n L s) (n * L) 0 :=
  ⟨rfl, rfl, rfl, rfl, rfl, rfl, rfl, rfl, rfl, fun _ => rfl,
    fun _ hi => passV_readTbuf_beyond s (by rwa [Nat.mul_comm]), fun _ _ => rfl⟩

/-- The horizontal pass writes the first `n * L` elements of RBUF (20_memory.md R57, 41_pass_ops.md R133). -/
theorem passH_sameBut (n L sh : Nat) (lo hi : Int) (s : State) : s.SameBut (passH n L sh lo hi s) 0 (n * L) :=
  ⟨rfl, rfl, rfl, rfl, rfl, rfl, rfl, rfl, rfl, fun _ => rfl, fun _ _ => rfl,
    fun _ hi => passH_readRbuf_beyond s sh _ _ (by rwa [Nat.mul_comm])⟩

/-- The two passes of a 2-D command write the block in both output buffers (42_itx2d_ops.md R141). -/
theorem pass2D_sameBut (n sh : Nat) (lo hi : Int) (s : State) : s.SameBut (pass2D n sh lo hi s) (n * n) (n * n) :=
  ((passV_sameBut n n s).trans (passH_sameBut n n sh lo hi _)).mono (by simp) (by simp)

/-! ### STATUS at the end of a command -/

theorem doneStatus_withDone (w : Word) : DoneStatus w (withDone w) :=
  ⟨withDone_done w, fun _ hk => withDone_other w hk⟩

/-- CAUSE as the statements read it. -/
theorem statusCause_toNat (w : Word) : (statusCause w).toNat = w.toNat / 16 % 16 := by
  simp [statusCause, Nat.shiftRight_eq_div_pow]

/-- Fault entry writes STATUS as 60_exceptions.md R163 says, whether or not it is the first. -/
theorem faultStatus_withFault (c : FaultCause) (w : Word) : FaultStatus c.code.toNat w (withFault c w) := by
  refine ⟨withFault_fault c w, withFault_done c w, ?_, fun _ hk => withFault_other c w hk⟩
  rw [← statusCause_toNat, ← statusCause_toNat]
  change _ = if statusFault w then _ else _
  cases hf : statusFault w with
  | true => exact congrArg BitVec.toNat (withFault_cause_kept c hf)
  | false => exact congrArg BitVec.toNat (withFault_cause c hf)

/-! ### The indices of a legal command -/

theorem line_le_64 {i : Instr} (hw : i.wellFormed = true) : i.line.toNat ≤ 64 := by
  cases hv : i.vertical with
  | false => exact ((wellFormed_single (.inl hv)).mp hw).2
  | true =>
    cases hh : i.horizontal with
    | false => exact ((wellFormed_single (.inr hh)).mp hw).2
    | true => exact (wellFormed_square hv hh).mp hw ▸ size_le_64 i

/-! ### A placed word -/

/-- The decoder reads a command from a table word exactly if the number fits one word and that word decodes. -/
theorem decodeTableWord_eq_some {n w : Nat} {i : Instr} :
    decodeTableWord n w = some i ↔ w % 2 ^ n < 2 ^ 32 ∧ decode (BitVec.ofNat 32 (w % 2 ^ n)) = .ok i := by
  unfold decodeTableWord
  by_cases hlt : w % 2 ^ n < 2 ^ 32
  · rw [if_pos hlt]
    cases decode (BitVec.ofNat 32 (w % 2 ^ n)) <;>
      simp only [hlt, true_and, Except.ok.injEq, Option.some.injEq, reduceCtorEq]
  · simp only [hlt, if_false, false_and, reduceCtorEq]

/-- The step that issues a word which decodes runs its command on the state with the operation taken and CMD holding the word
(43_host_ops.md R159). -/
theorem step_command {w : Word} {rest : List HostOp} {i : Instr} (ho : s.ops = .writeReg .cmd w :: rest)
    (hf : s.faulted = false) (hd : decode w = .ok i) : step s = exec i { s.issue rest with cmd := w } :=
  (step_issue ho).trans (issueCommand_decoded (s := s.issue rest) hf hd)

/-! ### The statements -/

/-- Settles O32: a faulting command writes STATUS alone, and a completing one has the frame of its pass or passes. -/
theorem commandFrame : Obligations.CommandFrame := by
  intro i s t h
  obtain ⟨-, he⟩ | ⟨-, -, -, he⟩ | ⟨-, hv, hh, he⟩ | ⟨-, hv, hh, -, he⟩ | ⟨-, hv, hh, hline, -, he⟩ := exec_cases i s <;>
    cases he.symm.trans h
  · exact ⟨(raiseFault_sameBut .badLine s).mono (Nat.zero_le _) (Nat.zero_le _),
      .inr (.inl (faultStatus_withFault .badLine s.status))⟩
  · exact ⟨(raiseFault_sameBut .badRange s).mono (Nat.zero_le _) (Nat.zero_le _),
      .inr (.inr (faultStatus_withFault .badRange s.status))⟩
  · rw [hv, hh]
    exact ⟨(passV_sameBut _ _ s).complete, .inl (doneStatus_withDone s.status)⟩
  · rw [hv, hh]
    exact ⟨(passH_sameBut _ _ _ _ _ s).complete, .inl (doneStatus_withDone s.status)⟩
  · rw [hv, hh, hline]
    exact ⟨(pass2D_sameBut _ _ _ _ s).complete, .inl (doneStatus_withDone s.status)⟩

/-- Settles O33: both index formulas stay below N*L, which is at most 64*64. -/
theorem regionInsideTheBuffer : Obligations.RegionInsideTheBuffer := by
  intro i hw l hl j hj
  have hregion : i.line.toNat * i.size ≤ 4096 := region_le_bufDepth (size_le_64 i) (line_le_64 hw)
  have hinput : l + i.line.toNat * j < i.line.toNat * i.size := Nat.add_mul_lt_mul_of_lt_of_lt hl hj
  have houtput : j + i.size * l < i.size * i.line.toNat := Nat.add_mul_lt_mul_of_lt_of_lt hj hl
  exact ⟨by linarith, by linarith⟩

/-- Settles O7: the word placed is the number's low 32 bits, and `withFetchWord` puts its write in front of the host's list. -/
theorem placedWordRunsItsCommand : Obligations.PlacedWordRunsItsCommand := by
  intro s w i hdecode hf
  obtain ⟨-, hd⟩ := decodeTableWord_eq_some.mp hdecode
  have hword : BitVec.ofNat 32 (w % 2 ^ 32) = BitVec.ofNat 32 w := BitVec.eq_of_toNat_eq (by simp)
  have hplaced : (s.withFetchWord 32 w).ops = .writeReg .cmd (BitVec.ofNat 32 w) :: s.ops := by
    rw [State.withFetchWord, hword]
  exact step_command hplaced hf (hword ▸ hd)

end Sys2Proof.Machine
end

section
/-! PROOFS. The words and the commands correspond: what the decoder answers, said once, and that a command's word is exactly the
word that decodes to it. Then the encoding statements, the operand faults among them. -/

namespace Sys2Proof

/-! ### A word and its fields -/

/-- Bit `k` of a word is bit `k - start` of a field that covers it. -/
theorem getLsbD_of_field {w : Word} {start n k : Nat} {f : BitVec n} (hf : w.extractLsb' start n = f)
    (hk : start ≤ k) (hk' : k < start + n) : w.getLsbD k = f.getLsbD (k - start) := by
  rw [← hf, BitVec.getLsbD_extractLsb', Nat.add_sub_cancel' hk, decide_eq_true (by omega), Bool.true_and]

theorem getLsbD_of_shiftField (w : Word) {k : Nat} (hk : 8 ≤ k) (hk' : k < 13) :
    w.getLsbD k = (shiftField w).getLsbD (k - 8) := getLsbD_of_field rfl hk hk'

theorem getLsbD_of_lineField (w : Word) {k : Nat} (hk : 16 ≤ k) (hk' : k < 23) :
    w.getLsbD k = (lineField w).getLsbD (k - 16) := getLsbD_of_field rfl hk hk'

/-- A word without reserved bits is put together from its fields (30_encoding.md R70, R75). -/
theorem encodeFields_of_fields {w : Word} (h : reservedClear w = true) :
    encodeFields (phField w) (pvField w) (log2nField w) (shiftField w) (lineField w) = w := by
  simp only [reservedClear, Bool.and_eq_true, beq_iff_eq] at h
  obtain ⟨⟨hlow, hmid⟩, hhigh⟩ := h
  refine BitVec.eq_of_getLsbD_eq fun k hk => ?_
  rw [encodeFields_bit]
  split_ifs with h₁ h₂ h₃ h₄ h₅ h₆ h₇
  · exact (getLsbD_of_field rfl (Nat.zero_le k) (by omega)).symm
  · rw [h₂]; rfl
  · rw [h₃]; rfl
  · simp [getLsbD_of_field hlow (k := k) (by omega) (by omega)]
  · exact (getLsbD_of_shiftField w (by omega) h₅).symm
  · simp [getLsbD_of_field hmid (k := k) (by omega) (by omega)]
  · exact (getLsbD_of_lineField w (by omega) h₇).symm
  · simp [getLsbD_of_field hhigh (k := k) (by omega) (by omega)]

/-- The mask of the rows leaves out the bits of SHIFT and LINE and no others (30_encoding.md R76). -/
theorem eq_of_masked_eq {v w : Word} (hm : v &&& rowMask = w &&& rowMask) (hs : shiftField v = shiftField w)
    (hl : lineField v = lineField w) : v = w := by
  refine BitVec.eq_of_getLsbD_eq fun k hk => ?_
  by_cases hshift : 8 ≤ k ∧ k < 13
  · obtain ⟨h₁, h₂⟩ := hshift
    rw [getLsbD_of_shiftField v h₁ h₂, getLsbD_of_shiftField w h₁ h₂, hs]
  by_cases hline : 16 ≤ k ∧ k < 23
  · obtain ⟨h₁, h₂⟩ := hline
    rw [getLsbD_of_lineField v h₁ h₂, getLsbD_of_lineField w h₁ h₂, hl]
  · have hbit : rowMask.getLsbD k = true := by interval_cases k <;> simp [rowMask] at hshift hline ⊢
    simpa [hbit] using congrArg (BitVec.getLsbD · k) hm

/-- A word matches a row under the mask exactly when it is the row's word with the operands it carries. -/
theorem masked_eq_iff (w : Word) (ph pv : Bool) (m : BitVec 3) :
    w &&& rowMask = (lowByte ph pv m).setWidth 32 ↔ encodeFields ph pv m (shiftField w) (lineField w) = w := by
  constructor
  · intro h
    exact eq_of_masked_eq ((Laws.WordOfRow.masked ph pv m _ _).trans h.symm) (encodeFields_shift ..) (encodeFields_line ..)
  · intro h
    rw [← Laws.WordOfRow.masked ph pv m (shiftField w) (lineField w), h]

/-! ### The fields as numbers -/

theorem log2nField_toNat (w : Word) : (log2nField w).toNat = w.toNat % 8 := by
  simp [log2nField]

theorem shiftField_toNat (w : Word) : (shiftField w).toNat = w.toNat / 2 ^ 8 % 32 := by
  simp [shiftField, Nat.shiftRight_eq_div_pow]

theorem lineField_toNat (w : Word) : (lineField w).toNat = w.toNat / 2 ^ 16 % 128 := by
  simp [lineField, Nat.shiftRight_eq_div_pow]

theorem shiftField_eq_ofNat (w : Word) : shiftField w = BitVec.ofNat 5 (w.toNat / 2 ^ 8) :=
  BitVec.eq_of_toNat_eq (by rw [shiftField_toNat, BitVec.toNat_ofNat])

theorem lineField_eq_ofNat (w : Word) : lineField w = BitVec.ofNat 7 (w.toNat / 2 ^ 16) :=
  BitVec.eq_of_toNat_eq (by rw [lineField_toNat, BitVec.toNat_ofNat])

theorem pvField_iff (w : Word) : pvField w = true ↔ w.toNat / 2 ^ 3 % 2 = 1 := by
  rw [pvField, BitVec.getLsbD, Nat.testBit_eq_decide_div_mod_eq, decide_eq_true_iff]

theorem phField_iff (w : Word) : phField w = true ↔ w.toNat / 2 ^ 4 % 2 = 1 := by
  rw [phField, BitVec.getLsbD, Nat.testBit_eq_decide_div_mod_eq, decide_eq_true_iff]

/-- Bits 4:3 are 0 exactly when neither pass bit is set. -/
theorem passBits_eq_zero_iff (w : Word) :
    w.toNat / 2 ^ 3 % 4 = 0 ↔ ¬(phField w = true ∨ pvField w = true) := by
  rw [phField_iff, pvField_iff]; omega

theorem reservedClear_iff (w : Word) :
    reservedClear w = true ↔
      ¬(w.toNat / 2 ^ 5 % 8 ≠ 0 ∨ w.toNat / 2 ^ 13 % 8 ≠ 0 ∨ w.toNat / 2 ^ 23 ≠ 0) := by
  have hlt := w.isLt
  simp only [reservedClear, Bool.and_eq_true, beq_iff_eq, BitVec.toNat_eq, BitVec.extractLsb'_toNat,
    Nat.shiftRight_eq_div_pow, BitVec.toNat_ofNat]
  omega

/-! ### The fields of a command -/

/-- The word of a command has the command's fields at their places (30_encoding.md R70). -/
theorem encode_eq_encodeFields (i : Instr) :
    encode i = encodeFields i.horizontal i.vertical (BitVec.ofNat 3 i.log2n) i.shift i.line := by
  cases i <;> rfl

theorem size_eq_two_pow (i : Instr) : i.size = 2 ^ i.log2n := by
  cases i <;> rfl

/-- The command has the fields of the word. -/
structure Instr.HasFieldsOf (i : Instr) (w : Word) : Prop where
  horizontal : i.horizontal = phField w
  vertical : i.vertical = pvField w
  log2n : i.log2n = (log2nField w).toNat
  shift : i.shift = shiftField w
  line : i.line = lineField w

theorem Instr.HasFieldsOf.encode_eq {i : Instr} {w : Word} (hi : i.HasFieldsOf w) (hr : reservedClear w = true) :
    encode i = w := by
  obtain ⟨hh, hv, hm, hs, hl⟩ := hi
  rw [encode_eq_encodeFields, hh, hv, hm, hs, hl, BitVec.ofNat_toNat, BitVec.setWidth_eq, encodeFields_of_fields hr]

/-! ### What the decoder answers -/

/-- The four answers of the decoder, each with the test of 30_encoding.md R83 that leads to it. -/
inductive DecodeCase (w : Word) : Prop where
  | reservedBit (hd : decode w = .error .illegalCmd) (hr : reservedClear w = false)
  | noPass (hd : decode w = .error .illegalCmd) (hr : reservedClear w = true)
      (hp : ¬(phField w = true ∨ pvField w = true))
  | badSize (hd : decode w = .error .badSize) (hr : reservedClear w = true)
      (hp : phField w = true ∨ pvField w = true) (hm : (log2nField w).toNat = 0 ∨ (log2nField w).toNat = 7)
  | command {i : Instr} (hd : decode w = .ok i) (hr : reservedClear w = true)
      (hp : phField w = true ∨ pvField w = true) (hm : ¬((log2nField w).toNat = 0 ∨ (log2nField w).toNat = 7))
      (hi : i.HasFieldsOf w)

variable {w : Word}

/-- A LOG2N that is none of the six sizes is 0 or 7 (30_encoding.md R71). -/
theorem log2nField_unsupported (h₁ : (log2nField w).toNat ≠ 1) (h₂ : (log2nField w).toNat ≠ 2)
    (h₃ : (log2nField w).toNat ≠ 3) (h₄ : (log2nField w).toNat ≠ 4) (h₅ : (log2nField w).toNat ≠ 5)
    (h₆ : (log2nField w).toNat ≠ 6) : (log2nField w).toNat = 0 ∨ (log2nField w).toNat = 7 := by
  have := (log2nField w).isLt
  omega

/-- With a pass bit set, one of the three select functions answers, each by the same seven branches on LOG2N. -/
theorem decodeCase_of_pass (hr : reservedClear w = true) (hp : phField w = true ∨ pvField w = true) : DecodeCase w := by
  obtain ⟨answer, hd⟩ : ∃ answer, decode w = answer := ⟨_, rfl⟩
  have hselect := hd
  cases hh : phField w <;> cases hv : pvField w
  case false.false => simp [hh, hv] at hp
  all_goals
    simp only [decode, hr, hh, hv, if_true, selectVertical, selectHorizontal, selectTwoD] at hselect
    split at hselect <;> subst hselect
    case h_7 => exact .badSize hd hr hp (log2nField_unsupported ‹_› ‹_› ‹_› ‹_› ‹_› ‹_›)
    all_goals exact .command hd hr hp (by omega) ⟨hh.symm, hv.symm, Eq.symm ‹_›, rfl, rfl⟩

theorem decode_cases (w : Word) : DecodeCase w := by
  cases hr : reservedClear w with
  | false => exact .reservedBit (by simp [decode, hr]) hr
  | true =>
    by_cases hp : phField w = true ∨ pvField w = true
    · exact decodeCase_of_pass hr hp
    · refine .noPass ?_ hr hp
      simp only [not_or, Bool.not_eq_true] at hp
      simp [decode, hr, hp]

theorem encode_of_decode {i : Instr} (h : decode w = .ok i) : encode i = w := by
  cases decode_cases w with
  | reservedBit hd => cases hd.symm.trans h
  | noPass hd => cases hd.symm.trans h
  | badSize hd => cases hd.symm.trans h
  | command hd hr _ _ hi => cases hd.symm.trans h; exact hi.encode_eq hr

/-- Row by row, the decoder reads back the fields the encoder has placed and selects the row by PH, PV and LOG2N. -/
theorem decode_encode (i : Instr) : decode (encode i) = .ok i := by
  cases i <;> simp [encode, decode] <;> rfl

theorem decode_eq_ok_iff {i : Instr} : decode w = .ok i ↔ encode i = w :=
  ⟨encode_of_decode, fun h => h ▸ decode_encode i⟩

end Sys2Proof

namespace Sys2Proof.Machine

/-! ### The rows of the opcode map, and the two checks on operands -/

/-- A row selects the words of its command when its pattern is the low byte of PH, PV and LOG2N (30_encoding.md R76). -/
theorem rowSelects (ph pv : Bool) (m : BitVec 3) {command : Shift → Line → Instr}
    (h : ∀ shift line, encode (command shift line) = encodeFields ph pv m shift line) :
    RowSelects ((lowByte ph pv m).setWidth 32) command := by
  intro w
  rw [decode_eq_ok_iff, ← shiftField_eq_ofNat, ← lineField_eq_ofNat, h]
  exact masked_eq_iff w ph pv m

/-- `Instr.wellFormed` is the LINE check as 30_encoding.md R74 states it. -/
theorem wellFormed_iff (i : Instr) :
    i.wellFormed = true ↔ 1 ≤ i.line.toNat ∧ i.line.toNat ≤ 64 ∧
      (i.vertical = true → i.horizontal = true → i.line.toNat = i.size) := by
  cases hv : i.vertical with
  | false => simp [wellFormed_single (.inl hv)]
  | true =>
    cases hh : i.horizontal with
    | false => simp [wellFormed_single (.inr hh)]
    | true =>
      have := size_mem i
      rw [wellFormed_square hv hh]
      simp only [forall_const]
      omega

/-- BAD_LINE, with what it leaves unchanged. -/
theorem exec_badLine_outcome {i : Instr} (s : State) (h : i.wellFormed = false) :
    ∃ t, exec i s = .next t ∧ FaultStatus 3 s.status t.status ∧ s.SameBut t 0 0 :=
  ⟨_, exec_of_illFormed s h, faultStatus_withFault .badLine s.status, raiseFault_sameBut .badLine s⟩

/-- BAD_RANGE, with what it leaves unchanged. -/
theorem exec_badRange_outcome {i : Instr} {s : State} (hw : i.wellFormed = true) (hh : i.horizontal = true)
    (hr : s.omax.toInt < s.omin.toInt) :
    ∃ t, exec i s = .next t ∧ FaultStatus 4 s.status t.status ∧ s.SameBut t 0 0 :=
  ⟨_, exec_of_badRange hw hh hr, faultStatus_withFault .badRange s.status, raiseFault_sameBut .badRange s⟩

/-- A command that passes both checks completes, whichever passes it performs. -/
theorem exec_completes {i : Instr} {s : State} (hw : i.wellFormed = true)
    (hr : i.horizontal = true → s.omin.toInt ≤ s.omax.toInt) :
    ∃ t, exec i s = .next t ∧ DoneStatus s.status t.status := by
  obtain ⟨hw', -⟩ | ⟨-, hh, hr', -⟩ | ⟨-, -, -, he⟩ | ⟨-, -, -, -, he⟩ | ⟨-, -, -, -, -, he⟩ := exec_cases i s
  · simp [hw] at hw'
  · exact absurd (hr hh) (not_le.mpr hr')
  all_goals exact ⟨_, he, doneStatus_withDone s.status⟩

/-- What a command without a horizontal step does is decided by its size and its LINE. -/
theorem exec_eq_of_vertical {i j : Instr} (s : State) (hi : i.horizontal = false) (hj : j.horizontal = false)
    (hsize : i.size = j.size) (hline : i.line = j.line) : exec i s = exec j s := by
  rw [exec_vertical s hi, exec_vertical s hj, hsize, hline]

/-! ### The statements -/

/-- Settles O1, row by row. -/
theorem decodeInvertsEncode : Obligations.DecodeInvertsEncode := decode_encode

/-- Settles O2: the command has the fields of the word, and the reserved bits are 0. -/
theorem encodeInvertsDecode : Obligations.EncodeInvertsDecode := fun _ _ h => encode_of_decode h

/-- Settles O3: each answer of the decoder, with its fields read as numbers. -/
theorem decodeFollowsTheProcedure : Obligations.DecodeFollowsTheProcedure := by
  intro w
  rw [← log2nField_toNat]
  cases decode_cases w with
  | reservedBit hd hr =>
    rwa [if_pos (by_contra fun h => by simp [(reservedClear_iff w).mpr h] at hr)]
  | noPass hd hr hp =>
    rwa [if_neg ((reservedClear_iff w).mp hr), if_pos ((passBits_eq_zero_iff w).mpr hp)]
  | badSize hd hr hp hm =>
    rwa [if_neg ((reservedClear_iff w).mp hr), if_neg ((passBits_eq_zero_iff w).not_left.mpr hp), if_pos hm]
  | command hd hr hp hm hi =>
    rw [if_neg ((reservedClear_iff w).mp hr), if_neg ((passBits_eq_zero_iff w).not_left.mpr hp), if_neg hm]
    exact ⟨_, hd, hi.log2n, hi.log2n ▸ size_eq_two_pow _, hi.horizontal ▸ phField_iff w, hi.vertical ▸ pvField_iff w,
      hi.shift ▸ shiftField_toNat w, hi.line ▸ lineField_toNat w⟩

/-- Settles O4: each row by its PH, PV and LOG2N; an illegal LINE by the check every row makes first. -/
theorem opcodeMapSelectsTheRow : Obligations.OpcodeMapSelectsTheRow :=
  ⟨rowSelects false true 1 fun _ _ => rfl, rowSelects false true 2 fun _ _ => rfl, rowSelects false true 3 fun _ _ => rfl,
    rowSelects false true 4 fun _ _ => rfl, rowSelects false true 5 fun _ _ => rfl, rowSelects false true 6 fun _ _ => rfl,
    rowSelects true false 1 fun _ _ => rfl, rowSelects true false 2 fun _ _ => rfl, rowSelects true false 3 fun _ _ => rfl,
    rowSelects true false 4 fun _ _ => rfl, rowSelects true false 5 fun _ _ => rfl, rowSelects true false 6 fun _ _ => rfl,
    rowSelects true true 1 fun _ _ => rfl, rowSelects true true 2 fun _ _ => rfl, rowSelects true true 3 fun _ _ => rfl,
    rowSelects true true 4 fun _ _ => rfl, rowSelects true true 5 fun _ _ => rfl, rowSelects true true 6 fun _ _ => rfl,
    fun _ s h => exec_badLine_outcome s h⟩

/-- Settles O20: the two checks in their order, then completion. -/
theorem operandFaults : Obligations.OperandFaults := by
  intro i s
  simp only [← wellFormed_iff, Bool.not_eq_true]
  exact ⟨exec_badLine_outcome s, exec_badRange_outcome, exec_completes⟩

/-- Settles O5: each statement's word is computed, and it is the word of the command. -/
theorem encodingExamples : Obligations.EncodingExamples :=
  ⟨⟨rfl, decode_encode (.itx2 0 2)⟩, ⟨rfl, decode_encode (.itx4 12 4)⟩, ⟨rfl, decode_encode (.itx8 12 8)⟩,
    ⟨rfl, decode_encode (.itx64 19 64)⟩, ⟨rfl, decode_encode (.itxv8 0 8)⟩, ⟨rfl, decode_encode (.itxv4 0 2)⟩,
    ⟨rfl, decode_encode (.itxh8 7 8)⟩, ⟨rfl, decode_encode (.itxh2 20 1)⟩⟩

/-- Settles O34: two `ITXV.n` that differ in SHIFT alone have the same size and the same LINE. -/
theorem shiftIgnoredByVertical : Obligations.ShiftIgnoredByVertical := fun s _ _ _ =>
  ⟨exec_eq_of_vertical s rfl rfl rfl rfl, exec_eq_of_vertical s rfl rfl rfl rfl, exec_eq_of_vertical s rfl rfl rfl rfl,
    exec_eq_of_vertical s rfl rfl rfl rfl, exec_eq_of_vertical s rfl rfl rfl rfl, exec_eq_of_vertical s rfl rfl rfl rfl⟩

end Sys2Proof.Machine
end

section
/-! PROOFS. The functions of the kernel and of the output stages: the partial butterfly and the matrix product, the bounds of
the datapath, rounding, the clamps, and what they do to zero. Then the statements of 40_kernel.md about them. -/

namespace Sys2Proof.Machine

/-! ### The partial butterfly -/

/-- `Y(n, s)[k]` of 40_kernel.md R95: the part of the matrix product that a level of length `n` and stride `s` takes. -/
def levelProduct (b : Nat → Nat → Int) (x : Nat → Int) (n s k : Nat) : Int :=
  ∑ i ∈ Finset.range n, b (i * s) k * x (i * s)

theorem sum_range_two_mul (f : Nat → Int) (n : Nat) :
    ∑ i ∈ Finset.range (2 * n), f i = ∑ t ∈ Finset.range n, f (2 * t) + ∑ t ∈ Finset.range n, f (2 * t + 1) := by
  induction n with
  | zero => rfl
  | succ n ih =>
    rw [Nat.mul_succ, Finset.sum_range_succ, Finset.sum_range_succ, ih, Finset.sum_range_succ, Finset.sum_range_succ]
    ring

variable (b : Nat → Nat → Int) (x : Nat → Int)

@[simp] theorem oddHalf_one (s k : Nat) : oddHalf b x 1 s k = b s k * x s := by simp [oddHalf, sumBelow]

theorem oddHalf_eq_sum (h s k : Nat) :
    oddHalf b x h s k = ∑ t ∈ Finset.range h, b ((2 * t + 1) * s) k * x ((2 * t + 1) * s) := sumBelow_eq_sum _ _

/-- The top level, of stride 1, is the whole product (40_kernel.md R91). -/
theorem levelProduct_one (n k : Nat) : levelProduct b x n 1 k = kernel b n x k := by
  simp [levelProduct, kernel, sumBelow_eq_sum]

/-- Splitting a level by the parity of its index gives the next level and the odd half. -/
theorem levelProduct_two_mul (h s k : Nat) :
    levelProduct b x (2 * h) s k = levelProduct b x h (2 * s) k + oddHalf b x h s k := by
  rw [levelProduct, sum_range_two_mul, oddHalf_eq_sum, levelProduct]
  simp only [Nat.mul_comm 2, Nat.mul_assoc]

variable {b}

/-- In the mirrored column a SYM table keeps its even rows and negates its odd ones (10_state.md R23). -/
theorem levelProduct_mirror {m p : Nat} (hb : TableSym b m) (hp : p < m) {k : Nat} (hk : k < 2 ^ p) :
    levelProduct b x (2 * 2 ^ p) (2 ^ (m - (p + 1))) (2 ^ (p + 1) - 1 - k) =
      levelProduct b x (2 ^ p) (2 * 2 ^ (m - (p + 1))) k - oddHalf b x (2 ^ p) (2 ^ (m - (p + 1))) k := by
  have sym (i : Nat) (hi : i < 2 * 2 ^ p) := hb (p + 1) (by omega) (by omega) i (by rwa [pow_succ']) k hk
  rw [levelProduct, sum_range_two_mul, oddHalf_eq_sum, levelProduct, sub_eq_add_neg, ← Finset.sum_neg_distrib]
  congr 1 <;> refine Finset.sum_congr rfl fun t ht => ?_ <;> rw [Finset.mem_range] at ht
  · rw [sym (2 * t) (by omega), if_pos (by omega), Nat.mul_right_comm, Nat.mul_comm t]
  · rw [sym (2 * t + 1) (by omega), if_neg (by omega), neg_mul]

/-- The claim of R95's induction: each level of the butterfly is its part of the matrix product. -/
theorem butterfly_eq_levelProduct {m : Nat} (hb : TableSym b m) {p : Nat} (hp : p ≤ m) {k : Nat} (hk : k < 2 ^ p) :
    butterfly b x p (2 ^ (m - p)) k = levelProduct b x (2 ^ p) (2 ^ (m - p)) k := by
  induction p generalizing k with
  | zero =>
    obtain rfl : k = 0 := by simpa using hk
    simp [butterfly, levelProduct]
  | succ p ih =>
    have hstride : 2 * 2 ^ (m - (p + 1)) = 2 ^ (m - p) := by rw [← pow_succ']; congr 1; omega
    rw [pow_succ'] at hk
    rw [butterfly, hstride]
    split
    next h => rw [ih (by omega) h, pow_succ' 2 p, levelProduct_two_mul, hstride]
    next h =>
      have hk' : 2 ^ (p + 1) - 1 - k < 2 ^ p := by rw [pow_succ']; omega
      have hmirror : 2 ^ (p + 1) - 1 - (2 ^ (p + 1) - 1 - k) = k := by rw [pow_succ']; omega
      have hlevel := levelProduct_mirror x hb hp hk'
      rw [hmirror, hstride] at hlevel
      rw [ih (by omega) hk', pow_succ' 2 p, hlevel, pow_succ']

/-! ### Bounds -/

/-- A product of an `s8` and an input of magnitude at most `c` (40_kernel.md R97). -/
theorem abs_mul_le_of_s8 {a y c : Int} (ha : |a| ≤ 128) (hy : |y| ≤ c) : |a * y| ≤ 128 * c := by
  rw [abs_mul]
  exact mul_le_mul ha hy (abs_nonneg y) (by decide)

theorem abs_kernel_le {b : Nat → Nat → Int} {n : Nat} {x : Nat → Int} {c : Int} (hb : ∀ j k, |b j k| ≤ 128)
    (hx : ∀ j < n, |x j| ≤ c) (k : Nat) : |kernel b n x k| ≤ n * (128 * c) :=
  abs_sumBelow_le fun j hj => abs_mul_le_of_s8 (hb j k) (hx j hj)

/-- The two taps of magnitude at most `c` give at most `2 * c` (40_kernel.md R98). -/
theorem abs_kernel2_le {x : Nat → Int} {c : Int} (hx : ∀ j < 2, |x j| ≤ c) (k : Nat) : |kernel2 x k| ≤ 2 * c := by
  have h₀ := abs_le.mp (hx 0 (by decide))
  have h₁ := abs_le.mp (hx 1 (by decide))
  rw [kernel2, Config.g2, abs_le]
  split <;> omega

/-- A two's-complement range is a bound on the magnitude. -/
theorem abs_le_of_range {y c : Int} (h : -c ≤ y ∧ y < c) : |y| ≤ c := abs_le.mpr ⟨h.1, h.2.le⟩

/-! ### Rounding -/

theorem addOf_of_pos {s : Nat} (hs : 0 < s) : addOf s = 2 ^ (s - 1) := if_neg hs.ne'

theorem addOf_nonneg (s : Nat) : 0 ≤ addOf s := by
  unfold addOf; split <;> positivity

/-- The rounding offset is less than one unit of the result. -/
theorem addOf_lt_two_pow (s : Nat) : addOf s < 2 ^ s := by
  obtain rfl | hs := Nat.eq_zero_or_pos s
  · decide
  · rw [addOf_of_pos hs]; exact pow_lt_pow_right₀ (by decide) (by omega)

/-- The rounding offset alone rounds to 0 (40_kernel.md R106). -/
@[simp] theorem asr_addOf (s : Nat) : asr (addOf s) s = 0 := Int.ediv_eq_zero_of_lt (addOf_nonneg s) (addOf_lt_two_pow s)

/-- The largest offset is that of the largest shift (40_kernel.md R105 e). -/
theorem addOf_le {s : Nat} (hs : s ≤ 31) : addOf s ≤ 2 ^ 30 := by
  obtain rfl | hpos := Nat.eq_zero_or_pos s
  · decide
  · rw [addOf_of_pos hpos]; exact pow_le_pow_right₀ (by decide) (by omega)

/-! ### The clamps -/

theorem clamp_eq_max_min {v lo hi : Int} (h : lo ≤ hi) : clamp v lo hi = max lo (min hi v) := by
  unfold clamp; split
  · omega
  · split <;> omega

theorem clamp32_eq_max_min (v : Int) : clamp32 v = max (-2147483648) (min 2147483647 v) := clamp_eq_max_min (by decide)

theorem sat16_eq_max_min (v : Int) : sat16 v = max (-32768) (min 32767 v) := clamp_eq_max_min (by decide)

/-- `HCLAMP` is fixed to `after_accumulation` (40_kernel.md R101, decision D13). -/
theorem hout_eq (v : Int) (s : Nat) (lo hi : Int) :
    hout v s lo hi = sat16 (clamp (asr (clamp32 v + addOf s) s) lo hi) := rfl

/-! ### Zero -/

@[simp] theorem kernel_zero (b : Nat → Nat → Int) (n k : Nat) : kernel b n (fun _ => 0) k = 0 := by
  simp [kernel, sumBelow_eq_sum]

@[simp] theorem kernel2_zero (k : Nat) : kernel2 (fun _ => 0) k = 0 := by simp [kernel2]

/-- A transform of a vector that is 0 at the indices it reads. -/
theorem transform_eq_zero {r : Rom} {n : Nat} {x : Nat → Int} (h : ∀ j < n, x j = 0) (k : Nat) : transform r n x k = 0 := by
  rw [transform_congr (y := fun _ => 0) h, transform]
  simp

@[simp] theorem vout_zero : vout 0 = 0 := by decide

theorem hout_zero (s : Nat) (lo hi : Int) : hout 0 s lo hi = sat16 (clamp 0 lo hi) := by
  have hin : clamp32 0 = 0 := by decide
  rw [hout_eq, hin, Int.zero_add, asr_addOf]

theorem sat16_clamp_zero_iff {lo hi : Int} (h : lo ≤ hi) : sat16 (clamp 0 lo hi) = 0 ↔ lo ≤ 0 ∧ 0 ≤ hi := by
  rw [clamp_eq_max_min h, sat16_eq_max_min]
  omega

/-! ### The statements -/

/-- Settles O41, by R95's induction, read off at the top level. -/
theorem butterflyEqualsMatrixProduct : Obligations.ButterflyEqualsMatrixProduct := by
  intro b m hb x k hk
  have htop := butterfly_eq_levelProduct x hb le_rfl hk
  rw [Nat.sub_self, pow_zero] at htop
  rw [kernelPB, htop, levelProduct_one]

/-- Settles O42: below the base butterfly stands one product, and its odd half is the other. -/
theorem baseButterflyIsSumAndDifference : Obligations.BaseButterflyIsSumAndDifference := by
  intro b x half
  constructor <;> simp [butterfly]

/-- Settles O43: every table entry is an `s8`, and a bound on the inputs carries over to the product and the sum,
128 being 2^7. -/
theorem kernelBounds : Obligations.KernelBounds := by
  refine ⟨fun r n j k x => ⟨fun hl hh => ?_, fun hl hh => ?_⟩, fun r n k x hx => ?_, fun r n k x hx => ?_,
    fun r n k x hx => ?_, fun k x hx => ?_, fun v s hs => ?_⟩
  · exact abs_mul_le_of_s8 (abs_romEntry_le r n j k) (abs_le_of_range ⟨hl, hh⟩)
  · exact abs_mul_le_of_s8 (abs_romEntry_le r n j k) (abs_le_of_range ⟨hl, hh⟩)
  · exact abs_kernel_le (abs_romEntry_le r n) (fun j hj => abs_le_of_range (hx j hj)) k
  · exact abs_kernel_le (abs_romEntry_le r n) (fun j hj => abs_le_of_range (hx j hj)) k
  · calc |kernel (romEntry r n) n x k| ≤ n * (128 * (n * 2 ^ 22)) := abs_kernel_le (abs_romEntry_le r n) hx k
      _ = n * 128 * n * 2 ^ 22 := by ring
  · exact abs_kernel2_le (fun j hj => abs_le_of_range (hx j hj)) k
  · exact add_lt_add_of_lt_of_le (Int.lt_add_one_of_le (clamp32_bounds v).2) (addOf_le hs)

/-- Settles O44: the offset is not negative, so neither the sum nor the sum with its offset leaves the 32-bit range. -/
theorem clampReadingsAgreeInRange : Obligations.ClampReadingsAgreeInRange := by
  refine ⟨fun v s hl hh => ?_, by decide, by decide⟩
  have hadd := addOf_nonneg s
  simp only [roundShift]
  rw [clamp32_of_mem hl (by omega), clamp32_of_mem (by omega) hh]
  exact ⟨rfl, rfl⟩

/-- Settles O45: half a unit of the result is the offset over 2^s, and the floor of a quotient is the floor division. -/
theorem roundingNearestTiesUp : Obligations.RoundingNearestTiesUp := by
  refine ⟨fun v s hs => ?_, fun s hs => addOf_of_pos hs, fun v => by simp [asr, addOf]⟩
  have hhalf : (v : ℚ) / 2 ^ s + 1 / 2 = ((v + 2 ^ (s - 1) : ℤ) : ℚ) / ((2 ^ s : ℕ) : ℚ) := by
    obtain ⟨s, rfl⟩ := Nat.exists_eq_succ_of_ne_zero hs.ne'
    push_cast
    rw [Nat.succ_eq_add_one, pow_succ]
    field_simp
  rw [hhalf, Rat.floor_intCast_div_natCast, asr]
  push_cast
  rfl

/-- Settles O46: each clamp is a maximum of a minimum. -/
theorem horizontalStageFormula : Obligations.HorizontalStageFormula := by
  intro v s lo hi h
  rw [hout_eq, sat16_eq_max_min, clamp_eq_max_min h, clamp32_eq_max_min]
  rfl

/-- Settles O47: the value before `sat16` lies in lo..hi, and `sat16` moves it only where that range leaves -32768..32767. -/
theorem storedValuesNeverWrap : Obligations.StoredValuesNeverWrap := by
  refine ⟨toInt_ofInt_vout, fun v s lo hi h => ⟨toInt_ofInt_hout v s lo hi, fun hl hh => ?_, fun hne => ?_, fun hh => ?_,
    fun hl => ?_⟩⟩
  all_goals
    have hlo := le_clamp (v := roundShift Config.hclamp v s) h
    have hhi := clamp_le (v := roundShift Config.hclamp v s) h
    rw [hout]
  · exact sat16_of_mem (by omega) (by omega)
  · rw [sat16_eq_max_min]; omega
  · rw [sat16_eq_max_min, sat16_eq_max_min]; omega
  · rw [sat16_eq_max_min, sat16_eq_max_min]; omega

end Sys2Proof.Machine
end

section
/-! PROOFS. What a command that passes its checks has computed, said once for all 18, and the statements about the results of
commands that follow from it. -/

namespace Sys2Proof.Machine

variable {s s' t t' : State} {i : Instr}

/-! ### What a command that passes its checks has computed -/

/-- A command answers a next state from every state. -/
theorem exec_next (i : Instr) (s : State) : ∃ t, exec i s = .next t := by
  obtain ⟨-, he⟩ | ⟨-, -, -, he⟩ | ⟨-, -, -, he⟩ | ⟨-, -, -, -, he⟩ | ⟨-, -, -, -, -, he⟩ := exec_cases i s <;> exact ⟨_, he⟩

/-- What the completed command `i` has done from `s` to `t`: DONE is set; the vertical step has written TBUF from CBUF, and
without one TBUF is kept; the horizontal step has written RBUF from TBUF as the command leaves it (41_pass_ops.md R132 to R134,
42_itx2d_ops.md R141). -/
structure Completed (i : Instr) (s t : State) : Prop where
  status : t.status = withDone s.status
  vertical : i.vertical = true → ∀ l < i.line.toNat, ∀ k < i.size, t.readTbuf (l * i.size + k) =
    vout (transform s.rom i.size (fun j => s.readCbuf (j * i.line.toNat + l)) k)
  kept : i.vertical = false → ∀ e, t.readTbuf e = s.readTbuf e
  horizontal : i.horizontal = true → ∀ l < i.line.toNat, ∀ k < i.size, t.readRbuf (l * i.size + k) =
    hout (transform s.rom i.size (fun j => t.readTbuf (j * i.line.toNat + l)) k) i.shift.toNat s.omin.toInt s.omax.toInt

/-- A command that passes its checks has completed (60_exceptions.md R161). -/
theorem completed_of_exec (h : exec i s = .next t) (hw : i.wellFormed = true)
    (hr : i.horizontal = true → s.omin.toInt ≤ s.omax.toInt) : Completed i s t := by
  obtain ⟨hw', -⟩ | ⟨-, hh, hr', -⟩ | ⟨-, hv, hh, he⟩ | ⟨-, hv, hh, -, he⟩ | ⟨-, hv, hh, hline, -, he⟩ := exec_cases i s
  · simp [hw] at hw'
  · exact absurd (hr hh) (not_le.mpr hr')
  all_goals cases he.symm.trans h
  · exact ⟨rfl, fun _ l hl k hk => passV_readTbuf s hl hk, by simp [hv], by simp [hh]⟩
  · exact ⟨rfl, by simp [hv], fun _ _ => rfl, fun _ l hl k hk => passH_readRbuf s _ _ _ hl hk⟩
  · refine ⟨rfl, ?_, by simp [hv], ?_⟩ <;> rw [hline]
    · exact fun _ l hl k hk => passV_readTbuf s hl hk
    · exact fun _ l hl k hk => passH_readRbuf (passV i.size i.size s) _ _ _ hl hk

/-- An index of the read set (20_memory.md R56). -/
theorem inputIndex_lt {n L j l : Nat} (hj : j < n) (hl : l < L) : j * L + l < n * L := by
  nlinarith

/-- Every element of the write set is output `k` of some line `l` (20_memory.md R55). -/
theorem forall_region {n L : Nat} {p : Nat → Prop} (h : ∀ l < L, ∀ k < n, p (l * n + k)) : ∀ e < n * L, p e := by
  intro e he
  have hn : 0 < n := Nat.pos_of_lt_mul_right he
  rw [← Nat.div_add_mod' e n]
  exact h (e / n) (Nat.div_lt_of_lt_mul he) (e % n) (Nat.mod_lt e hn)

/-- Two commands that have completed alike hold the same elements in the write set if their inputs agree on the read set
(40_kernel.md R107). -/
theorem Completed.outputs_congr (h : Completed i s t) (h' : Completed i s' t') (hmin : s'.omin = s.omin)
    (hmax : s'.omax = s.omax) (hrom : s'.rom = s.rom)
    (hc : i.vertical = true → ∀ e < i.size * i.line.toNat, s'.readCbuf e = s.readCbuf e)
    (ht : i.vertical = false → ∀ e < i.size * i.line.toNat, s'.readTbuf e = s.readTbuf e) :
    (∀ e < i.size * i.line.toNat, t'.readTbuf e = t.readTbuf e) ∧
      (i.horizontal = true → ∀ e < i.size * i.line.toNat, t'.readRbuf e = t.readRbuf e) := by
  have htbuf : ∀ e < i.size * i.line.toNat, t'.readTbuf e = t.readTbuf e := by
    cases hv : i.vertical with
    | false => exact fun e he => by rw [h.kept hv, h'.kept hv, ht hv e he]
    | true =>
      refine forall_region fun l hl k hk => ?_
      rw [h.vertical hv l hl k hk, h'.vertical hv l hl k hk, hrom,
        transform_congr fun j hj => hc hv _ (inputIndex_lt hj hl)]
  refine ⟨htbuf, fun hh => forall_region fun l hl k hk => ?_⟩
  rw [h.horizontal hh l hl k hk, h'.horizontal hh l hl k hk, hrom, hmin, hmax,
    transform_congr fun j hj => htbuf _ (inputIndex_lt hj hl)]

/-- The one line of a vertical pass with LINE = 1 (40_kernel.md R114). -/
theorem Completed.vertical_single_line (h : Completed i s t) (hv : i.vertical = true) (hline : i.line.toNat = 1) {k : Nat}
    (hk : k < i.size) : t.readTbuf k = vout (transform s.rom i.size s.readCbuf k) := by
  simpa [hline] using h.vertical hv 0 (by omega) k hk

/-- The one line of a horizontal pass with LINE = 1 (40_kernel.md R114). -/
theorem Completed.horizontal_single_line (h : Completed i s t) (hh : i.horizontal = true) (hline : i.line.toNat = 1) {k : Nat}
    (hk : k < i.size) : t.readRbuf k =
      hout (transform s.rom i.size t.readTbuf k) i.shift.toNat s.omin.toInt s.omax.toInt := by
  simpa [hline] using h.horizontal hh 0 (by omega) k hk

/-! ### The size of a vertical result -/

theorem transform_eq_kernel_basis (r : Rom) (n : Nat) (x : Nat → Int) {k : Nat} (hk : k < n) :
    transform r n x k = kernel (basis r n) n x k := by
  rw [transform_eq_sum_basis r n x hk, kernel, sumBelow_eq_sum]

/-- A transform of `s16` inputs is within 2^28 (40_kernel.md R97, R100). -/
theorem abs_transform_le (r : Rom) {n : Nat} (hn : n ≤ 64) {x : Nat → Int} (hx : ∀ j, -32768 ≤ x j ∧ x j ≤ 32767) {k : Nat}
    (hk : k < n) : |transform r n x k| ≤ 2 ^ 28 := by
  rw [transform_eq_kernel_basis r n x hk]
  have hx' (j : Nat) (_ : j < n) : |x j| ≤ 32768 := by
    have := hx j
    rw [abs_le]; omega
  have hsum := abs_kernel_le (abs_basis_le r n) hx' k
  omega

/-! ### The statements -/

/-- Settles O30: the sum lies within 2^28 of zero, well inside the range of the 32-bit clamp. -/
theorem verticalClampNeverActs : Obligations.VerticalClampNeverActs := by
  intro i s hv hw hr
  obtain ⟨t, ht⟩ := exec_next i s
  refine ⟨t, ht, fun l hl k hk => ?_⟩
  have hbound := abs_le.mp (abs_transform_le s.rom (size_le_64 i)
    (x := fun j => s.readCbuf (j * i.line.toNat + l)) (fun j => (element_bounds s _).1) hk)
  rw [(completed_of_exec ht hw hr).vertical hv l hl k hk, vout, clamp32_of_mem (by omega) (by omega)]
  exact ⟨transform_eq_sum_basis _ _ _ hk, hbound⟩

/-- Settles O36: the read set decides the outputs. Both ends of STATUS overwrite DONE, and a fault CAUSE too, so two words
outside the FAULT state that agree on CAUSE and the reserved bits end equal. -/
theorem readSetDeterminesResult : Obligations.ReadSetDeterminesResult := by
  intro i s s' hmin hmax hrom hc ht
  have fault_congr (c : FaultCause) (hf : s.status.getLsbD 1 = false) (hf' : s'.status.getLsbD 1 = false)
      (hk : ∀ k, 2 ≤ k → s'.status.getLsbD k = s.status.getLsbD k) : withFault c s'.status = withFault c s.status :=
    withFault_congr c hf' hf fun k hres => hk k (by omega)
  cases hw : i.wellFormed with
  | false => exact ⟨_, _, exec_of_illFormed s hw, exec_of_illFormed s' hw, fault_congr .badLine, by simp⟩
  | true =>
    by_cases hr : i.horizontal = true → s.omin.toInt ≤ s.omax.toInt
    · obtain ⟨t, he⟩ := exec_next i s
      obtain ⟨t', he'⟩ := exec_next i s'
      have hdone := completed_of_exec he hw hr
      have hdone' := completed_of_exec he' hw (by rwa [hmin, hmax])
      obtain ⟨htbuf, hrbuf⟩ := hdone.outputs_congr hdone' hmin hmax hrom hc ht
      refine ⟨t, t', he, he', fun hf hf' hk => ?_, fun _ _ => ⟨fun _ => htbuf, hrbuf⟩⟩
      rw [hdone.status, hdone'.status]
      refine withDone_congr fun k hk0 => ?_
      obtain rfl | hk2 : k = 1 ∨ 2 ≤ k := by omega
      · rw [hf, hf']
      · exact hk k hk2
    · obtain ⟨hh, hempty⟩ := Classical.not_imp.mp hr
      have hempty' : s'.omax.toInt < s'.omin.toInt := by rw [hmin, hmax]; omega
      exact ⟨_, _, exec_of_badRange hw hh (not_le.mp hempty), exec_of_badRange hw hh hempty', fault_congr .badRange,
        fun _ h => absurd h hr⟩

/-- Settles O37: line `l` reads column `l` of its input and nothing else. -/
theorem linesAreIndependent : Obligations.LinesAreIndependent := by
  intro i j s s' l hsize hshift hone hle hl hrom hmin hmax
  obtain ⟨t, ht⟩ := exec_next i s
  obtain ⟨t', ht'⟩ := exec_next j s'
  refine ⟨t, t', ht, ht', fun hi hj hin k hk => ?_, fun hi hj hr hin k hk => ?_⟩
  · have hdone := completed_of_exec ht ((wellFormed_single (.inr hi)).mpr ⟨by omega, hle⟩) (by simp [hi])
    have hdone' := completed_of_exec ht' ((wellFormed_single (.inr hj)).mpr (by omega)) (by simp [hj])
    have hvi := (vertical_or_horizontal i).resolve_right (by simp [hi])
    have hvj := (vertical_or_horizontal j).resolve_right (by simp [hj])
    rw [hdone.vertical hvi l hl k hk, hdone'.vertical_single_line hvj hone (hsize ▸ hk), hsize, hrom, transform_congr hin]
  · have hdone := completed_of_exec ht ((wellFormed_single (.inl hi)).mpr ⟨by omega, hle⟩) (fun _ => hr)
    have hdone' := completed_of_exec ht' ((wellFormed_single (.inl hj)).mpr (by omega)) (fun _ => by rwa [hmin, hmax])
    have hhi := (vertical_or_horizontal i).resolve_left (by simp [hi])
    have hhj := (vertical_or_horizontal j).resolve_left (by simp [hj])
    have hcolumn (e : Nat) (he : e < i.size) : t'.readTbuf e = t.readTbuf (e * i.line.toNat + l) := by
      rw [hdone.kept hi, hdone'.kept hj, hin e he]
    rw [hdone.horizontal hhi l hl k hk, hdone'.horizontal_single_line hhj hone (hsize ▸ hk), hsize, hrom, hshift, hmin, hmax,
      transform_congr hcolumn]

/-- Settles O38: a zero input gives zero sums, which each output stage keeps when its range contains 0. -/
theorem zeroInZeroOut : Obligations.ZeroInZeroOut := by
  refine ⟨fun b n k => ⟨kernel_zero b n k, kernel2_zero k⟩, vout_zero, fun sh lo hi _ h => ⟨hout_zero sh lo hi, ?_⟩,
    fun i s hw hr hc ht => ?_⟩
  · rw [hout_zero, sat16_clamp_zero_iff h]
  · obtain ⟨t, he⟩ := exec_next i s
    have hrange (hh : i.horizontal = true) := (hr hh).1.trans (hr hh).2
    have hdone := completed_of_exec he hw hrange
    have htbuf : ∀ e < i.size * i.line.toNat, t.readTbuf e = 0 := by
      cases hv : i.vertical with
      | false => exact fun e hlt => (hdone.kept hv e).trans (ht hv e hlt)
      | true =>
        refine forall_region fun l hl k hk => ?_
        rw [hdone.vertical hv l hl k hk, transform_eq_zero fun j hj => hc hv _ (inputIndex_lt hj hl), vout_zero]
    refine ⟨t, he, fun _ => htbuf, fun hh => forall_region fun l hl k hk => ?_⟩
    rw [hdone.horizontal hh l hl k hk, transform_eq_zero fun j hj => htbuf _ (inputIndex_lt hj hl), hout_zero,
      (sat16_clamp_zero_iff (hrange hh)).mpr (hr hh)]

end Sys2Proof.Machine
end

section
/-! PROOFS. Every step completes, and no step but Reset reads or writes the variant. -/

namespace Sys2Proof.Machine

variable {s t : State} {i : Instr}

/-! ### Every step answers a next state -/

theorem issueCommand_next (w : Word) (s : State) : ∃ t, issueCommand w s = .next t := by
  cases hf : s.faulted with
  | true => exact ⟨_, issueCommand_faulted w hf⟩
  | false =>
    cases hd : decode w with
    | error e => exact ⟨_, issueCommand_rejected hf hd⟩
    | ok i => rw [issueCommand_decoded hf hd]; exact exec_next i _

/-- Every host operation completes (43_host_ops.md section 1). -/
theorem hostOp_next (op : HostOp) (s : State) : ∃ t, hostOp op s = .next t := by
  cases op with
  | writeReg r w =>
    cases r with
    | cmd => exact issueCommand_next w s
    | status => exact ⟨_, rfl⟩
    | omin => exact ⟨_, rfl⟩
    | omax => exact ⟨_, rfl⟩
  | _ => exact ⟨_, rfl⟩

/-- Every step completes (20_memory.md R63). -/
theorem step_next (s : State) : ∃ t, step s = .next t := by
  cases ho : s.ops with
  | nil => exact ⟨s, step_idle ho⟩
  | cons op rest => rw [step_issue ho]; exact hostOp_next op _

/-! ### A step under another variant -/

/-- The same machine under another variant. -/
def State.withVariant (v : Variant) (s : State) : State := { s with variant := v }

/-- A command reads no variant (40_kernel.md R110). -/
theorem exec_withVariant (v : Variant) (h : exec i s = .next t) :
    exec i (s.withVariant v) = .next (t.withVariant v) := by
  obtain ⟨hw, he⟩ | ⟨hw, hh, hr, he⟩ | ⟨hw, -, hh, he⟩ | ⟨hw, hv, -, hr, he⟩ | ⟨hw, hv, hh, -, hr, he⟩ := exec_cases i s <;>
    cases he.symm.trans h
  · exact exec_of_illFormed _ hw
  · exact exec_of_badRange hw hh hr
  · exact exec_vertical_legal _ hw hh
  · exact exec_horizontal_legal hw hv hr
  · exact exec_twoD_legal hw hv hh hr

/-- A write of CMD reads no variant. -/
theorem issueCommand_withVariant {w : Word} (v : Variant) (h : issueCommand w s = .next t) :
    issueCommand w (s.withVariant v) = .next (t.withVariant v) := by
  obtain ⟨hf, rfl⟩ | ⟨hf, e, hd, rfl⟩ | ⟨hf, i, hd, he⟩ := issueCommand_cases h
  · exact issueCommand_faulted w hf
  · exact issueCommand_rejected hf hd
  · exact (issueCommand_decoded (s := s.withVariant v) hf hd).trans (exec_withVariant v he)

theorem unlessFaulted_withVariant (v : Variant) (s t : State) :
    (s.withVariant v).unlessFaulted (t.withVariant v) = (s.unlessFaulted t).withVariant v := by
  cases hf : s.faulted with
  | true => rw [unlessFaulted_of_faulted t hf]; exact unlessFaulted_of_faulted _ hf
  | false => rw [unlessFaulted_of_not t hf]; exact unlessFaulted_of_not _ hf

/-- No host operation but Reset reads or writes the variant (10_state.md R34). -/
theorem hostOp_withVariant {op : HostOp} (v : Variant) (hop : op ≠ .reset) (h : hostOp op s = .next t) :
    hostOp op (s.withVariant v) = .next (t.withVariant v) := by
  cases op with
  | writeReg r w =>
    cases r with
    | cmd => exact issueCommand_withVariant v h
    | status => cases h; rfl
    | omin => cases h; exact congrArg _ (unlessFaulted_withVariant v s { s with omin := w })
    | omax => cases h; exact congrArg _ (unlessFaulted_withVariant v s { s with omax := w })
  | readReg r => cases h; cases r <;> rfl
  | writeCbuf i x => cases h; exact congrArg _ (unlessFaulted_withVariant v s { s with cbuf := s.cbuf.write i.toNat x })
  | writeTbuf i x => cases h; exact congrArg _ (unlessFaulted_withVariant v s { s with tbuf := s.tbuf.write i.toNat x })
  | writeRbuf i x => cases h; exact congrArg _ (unlessFaulted_withVariant v s { s with rbuf := s.rbuf.write i.toNat x })
  | readBuf b i => cases h; cases b <;> rfl
  | reset => exact absurd rfl hop

/-! ### The statement -/

/-- Settles O35: Reset samples the variant again, and every other step carries it along. -/
theorem variantHasNoEffect : Obligations.VariantHasNoEffect := by
  intro s v
  obtain ⟨t, ht⟩ := step_next s
  obtain ⟨ho, rfl⟩ | ⟨op, rest, ho, hop⟩ := step_cases ht
  · exact ⟨t, t.withVariant v, ht, step_idle ho, rfl, by simp [ho], fun _ => rfl⟩
  · have hstep : step (s.withVariant v) = hostOp op ((s.issue rest).withVariant v) := step_issue ho
    by_cases hreset : op = .reset
    · subst hreset
      exact ⟨t, _, ht, hstep.trans rfl, by cases hop; rfl, fun _ => rfl, by simp [ho]⟩
    · exact ⟨t, t.withVariant v, ht, hstep.trans (hostOp_withVariant v hreset hop), rfl, by simp [ho, hreset], fun _ => rfl⟩

end Sys2Proof.Machine
end

section
/-! PROOFS. What the twelve commands of a single pass compute: each pass's outcome once for its six commands, in terms of the
transform, and then the transform as the product with the row's matrix. -/

namespace Sys2Proof.Machine

variable {i : Instr} {n : Nat} {shift : Shift} {line : Line} {table : Rom → Nat → Nat → Int} {command : Shift → Line → Instr}

/-! ### The outcome of a single pass -/

/-- An `ITXV.n` with a legal LINE completes, and output `k` of its line `l` is the clamped transform of column `l` of CBUF
(41_pass_ops.md R132, R134). -/
theorem exec_vertical_outcome (s : State) (hsize : i.size = n) (hline : i.line = line) (hh : i.horizontal = false)
    (h₁ : 1 ≤ line.toNat) (h₆₄ : line.toNat ≤ 64) :
    ∃ t, exec i s = .next t ∧ DoneStatus s.status t.status ∧ s.SameBut t (n * line.toNat) 0 ∧
      ∀ l < line.toNat, ∀ k < n,
        t.readTbuf (n * l + k) = clamp32 (transform s.rom n (fun j => s.readCbuf (j * line.toNat + l)) k) := by
  subst hsize hline
  have hw : i.wellFormed = true := (wellFormed_single (.inr hh)).mpr ⟨h₁, h₆₄⟩
  refine ⟨_, exec_vertical_legal s hw hh, doneStatus_withDone s.status, (passV_sameBut _ _ s).complete, fun l hl k hk => ?_⟩
  rw [Nat.mul_comm, complete_readTbuf, passV_readTbuf s hl hk, vout]

/-- An `ITXH.n` with a legal LINE and a range that is not empty completes, and output `k` of its line `l` is the horizontal
stage of the transform of column `l` of TBUF (41_pass_ops.md R133, R134). -/
theorem exec_horizontal_outcome {s : State} (hsize : i.size = n) (hline : i.line = line) (hshift : i.shift = shift)
    (hv : i.vertical = false) (h₁ : 1 ≤ line.toNat) (h₆₄ : line.toNat ≤ 64) (hr : s.omin.toInt ≤ s.omax.toInt) :
    ∃ t, exec i s = .next t ∧ DoneStatus s.status t.status ∧ s.SameBut t 0 (n * line.toNat) ∧
      ∀ l < line.toNat, ∀ k < n,
        t.readRbuf (n * l + k) = hout (transform s.rom n (fun j => s.readTbuf (j * line.toNat + l)) k)
          shift.toNat s.omin.toInt s.omax.toInt := by
  subst hsize hline hshift
  have hw : i.wellFormed = true := (wellFormed_single (.inl hv)).mpr ⟨h₁, h₆₄⟩
  refine ⟨_, exec_horizontal_legal hw hv hr, doneStatus_withDone s.status, (passH_sameBut _ _ _ _ _ s).complete,
    fun l hl k hk => ?_⟩
  rw [Nat.mul_comm, complete_readRbuf, passH_readRbuf s _ _ _ hl hk]

/-! ### The outcome as a product with the row's matrix -/

/-- The six `ITXV.n`: a row's result is the product with `table` if `table` is the basis of its size. -/
theorem verticalResult (htable : ∀ r, table r = basis r n)
    (hrow : ∀ shift line, (command shift line).size = n ∧ (command shift line).line = line ∧
      (command shift line).horizontal = false) : VerticalResult n table command := by
  intro s shift line h₁ h₆₄
  obtain ⟨hsize, hline, hh⟩ := hrow shift line
  obtain ⟨t, he, hdone, hframe, hout⟩ := exec_vertical_outcome s hsize hline hh h₁ h₆₄
  refine ⟨t, he, hdone, hframe, fun l hl k hk => ?_⟩
  rw [hout l hl k hk, transform_eq_sum_basis _ _ _ hk, htable]

/-- The six `ITXH.n` likewise. -/
theorem horizontalResult (htable : ∀ r, table r = basis r n)
    (hrow : ∀ shift line, (command shift line).size = n ∧ (command shift line).line = line ∧
      (command shift line).shift = shift ∧ (command shift line).vertical = false) : HorizontalResult n table command := by
  intro s shift line h₁ h₆₄ hr
  obtain ⟨hsize, hline, hshift, hv⟩ := hrow shift line
  obtain ⟨t, he, hdone, hframe, hout⟩ := exec_horizontal_outcome hsize hline hshift hv h₁ h₆₄ hr
  refine ⟨t, he, hdone, hframe, fun l hl k hk => ?_⟩
  rw [hout l hl k hk, transform_eq_sum_basis _ _ _ hk, htable]

/-! ### The statements -/

/-- Settles O22: every row's matrix is the basis of its size. -/
theorem verticalTableResult : Obligations.VerticalTableResult :=
  ⟨verticalResult (fun _ => rfl) fun _ _ => ⟨rfl, rfl, rfl⟩, verticalResult (fun _ => rfl) fun _ _ => ⟨rfl, rfl, rfl⟩,
    verticalResult (fun _ => rfl) fun _ _ => ⟨rfl, rfl, rfl⟩, verticalResult (fun _ => rfl) fun _ _ => ⟨rfl, rfl, rfl⟩,
    verticalResult (fun _ => rfl) fun _ _ => ⟨rfl, rfl, rfl⟩, verticalResult (fun _ => rfl) fun _ _ => ⟨rfl, rfl, rfl⟩⟩

/-- Settles O24: every row's matrix is the basis of its size. -/
theorem horizontalTableResult : Obligations.HorizontalTableResult :=
  ⟨horizontalResult (fun _ => rfl) fun _ _ => ⟨rfl, rfl, rfl, rfl⟩,
    horizontalResult (fun _ => rfl) fun _ _ => ⟨rfl, rfl, rfl, rfl⟩,
    horizontalResult (fun _ => rfl) fun _ _ => ⟨rfl, rfl, rfl, rfl⟩,
    horizontalResult (fun _ => rfl) fun _ _ => ⟨rfl, rfl, rfl, rfl⟩,
    horizontalResult (fun _ => rfl) fun _ _ => ⟨rfl, rfl, rfl, rfl⟩,
    horizontalResult (fun _ => rfl) fun _ _ => ⟨rfl, rfl, rfl, rfl⟩⟩

/-- Settles O21: outputs 0 and 1 of the base case are the sum and the difference of its two taps. -/
theorem verticalTwoTapResult : Obligations.VerticalTwoTapResult := by
  intro s shift line h₁ h₆₄
  obtain ⟨t, he, hdone, hframe, hout⟩ :=
    exec_vertical_outcome (i := .itxv2 shift line) (n := 2) (line := line) s rfl rfl rfl h₁ h₆₄
  refine ⟨t, he, hdone, hframe, fun l hl => ⟨?_, ?_⟩⟩
  · simpa using hout l hl 0 (by decide)
  · simpa using hout l hl 1 (by decide)

/-- Settles O23: the same two outputs, each through the horizontal stage. -/
theorem horizontalTwoTapResult : Obligations.HorizontalTwoTapResult := by
  intro s shift line h₁ h₆₄ hr
  obtain ⟨t, he, hdone, hframe, hout⟩ :=
    exec_horizontal_outcome (i := .itxh2 shift line) (n := 2) (shift := shift) (line := line) rfl rfl rfl rfl h₁ h₆₄ hr
  refine ⟨t, he, hdone, hframe, fun l hl => ⟨?_, ?_⟩⟩
  · simpa using hout l hl 0 (by decide)
  · simpa using hout l hl 1 (by decide)

end Sys2Proof.Machine
end

section
/-! PROOFS. What the six commands of both passes compute: the outcome once for all of them, the residual block as the separable
product with the basis, and the same effect by two commands of a single pass. -/

namespace Sys2Proof.Machine

variable {s : State} {i : Instr} {n : Nat} {shift : Shift}
  {table : Rom → Nat → Nat → Int} {command : Shift → Line → Instr}

/-! ### The outcome of a 2-D command -/

/-- The transform of a vector of `s16` values fits 32 bits, so the vertical output stage keeps it (40_kernel.md R100). -/
theorem vout_transform (r : Rom) (hn : n ≤ 64) {x : Nat → Int} (hx : ∀ j, -32768 ≤ x j ∧ x j ≤ 32767) {k : Nat}
    (hk : k < n) : vout (transform r n x k) = transform r n x k := by
  have hbound := abs_le.mp (abs_transform_le r hn hx hk)
  exact clamp32_of_mem (by omega) (by omega)

/-- An `ITX.n` with LINE = n and a range that is not empty completes; TBUF holds the transformed columns of CBUF, which no clamp
has changed, and RBUF the horizontal stage of their transformed rows (42_itx2d_ops.md R141, R151). -/
theorem exec_twoD_outcome (hsize : i.size = n) (hshift : i.shift = shift) (hv : i.vertical = true) (hh : i.horizontal = true)
    (hline : i.line.toNat = n) (hr : s.omin.toInt ≤ s.omax.toInt) :
    ∃ t, exec i s = .next t ∧ DoneStatus s.status t.status ∧ s.SameBut t (n * n) (n * n) ∧
      (∀ c < n, ∀ y < n, t.readTbuf (c * n + y) = transform s.rom n (fun r => s.readCbuf (r * n + c)) y) ∧
      ∀ y < n, ∀ x < n, t.readRbuf (y * n + x) =
        hout (transform s.rom n (fun c => t.readTbuf (c * n + y)) x) shift.toNat s.omin.toInt s.omax.toInt := by
  subst hsize hshift
  have hw : i.wellFormed = true := (wellFormed_square hv hh).mpr hline
  have he := exec_twoD_legal hw hv hh hr
  obtain ⟨-, hvert, -, hhor⟩ := completed_of_exec he hw fun _ => hr
  rw [hline] at hvert hhor
  refine ⟨_, he, doneStatus_withDone s.status, (pass2D_sameBut _ _ _ _ s).complete, fun c hc y hy => ?_, hhor hh⟩
  rw [hvert hv c hc y hy, vout_transform s.rom (size_le_64 i) (fun j => (element_bounds s _).1) hy]

/-- The six `ITX.n`: a row's result is the closed form with `table` if `table` is the basis of its size. -/
theorem twoDResult (htable : ∀ r, table r = basis r n)
    (hrow : ∀ shift line, (command shift line).size = n ∧ (command shift line).line = line ∧
      (command shift line).shift = shift ∧ (command shift line).vertical = true ∧
      (command shift line).horizontal = true) : TwoDResult n table command := by
  intro s shift line hn hr v
  obtain ⟨hsize, hline, hshift, hv, hh⟩ := hrow shift line
  have hn64 : n ≤ 64 := hsize ▸ size_le_64 _
  obtain ⟨t, he, hdone, hframe, htbuf, hrbuf⟩ := exec_twoD_outcome hsize hshift hv hh (by rw [hline, hn]) hr
  have hcolumn : ∀ c < n, ∀ y < n, t.readTbuf (c * n + y) = v y c := fun c hc y hy => by
    rw [htbuf c hc y hy, ← vout_transform s.rom hn64 (fun j => (element_bounds s _).1) hy, transform_eq_sum_basis _ _ _ hy,
      ← htable, vout]
  refine ⟨t, he, hdone, hframe, hcolumn, fun y hy x hx => ?_⟩
  rw [hrbuf y hy x hx, transform_congr fun c hc => hcolumn c hc y hy, transform_eq_sum_basis _ _ _ hx, ← htable]

/-! ### The residual block as the separable product -/

/-- Element `(y, x)` of the block in CBUF, multiplied by the basis on both sides (42_itx2d_ops.md R144). -/
def separableProduct (s : State) (n y x : Nat) : Int :=
  ∑ r ∈ Finset.range n, ∑ c ∈ Finset.range n, basis s.rom n r y * s.readCbuf (r * n + c) * basis s.rom n c x

/-- The transformed rows of the transformed columns are the separable product. -/
theorem transform_transform_eq_separableProduct (s : State) {y x : Nat} (hy : y < n) (hx : x < n) :
    transform s.rom n (fun c => transform s.rom n (fun r => s.readCbuf (r * n + c)) y) x = separableProduct s n y x := by
  rw [transform_eq_sum_basis _ _ _ hx, separableProduct, Finset.sum_comm]
  refine Finset.sum_congr rfl fun c _ => ?_
  rw [transform_eq_sum_basis _ _ _ hy, Finset.mul_sum, Finset.sum_congr rfl fun r _ => mul_comm _ _]

/-- Every element of the residual block is the horizontal stage of the separable product (42_itx2d_ops.md R142, R144). -/
theorem exec_twoD_separable (hv : i.vertical = true) (hh : i.horizontal = true) (hline : i.line.toNat = i.size)
    (hr : s.omin.toInt ≤ s.omax.toInt) :
    ∃ t, exec i s = .next t ∧ ∀ y < i.size, ∀ x < i.size, t.readRbuf (y * i.size + x) =
      hout (separableProduct s i.size y x) i.shift.toNat s.omin.toInt s.omax.toInt := by
  obtain ⟨t, he, -, -, htbuf, hrbuf⟩ := exec_twoD_outcome rfl rfl hv hh hline hr
  refine ⟨t, he, fun y hy x hx => ?_⟩
  rw [hrbuf y hy x hx, transform_congr fun c hc => htbuf c hc y hy, transform_transform_eq_separableProduct s hy hx]

/-- A position of the block determines its row and its column. -/
theorem blockIndex_inj {r c r' c' : Nat} (hc : c < n) (hc' : c' < n) (h : r * n + c = r' * n + c') : r = r' ∧ c = c' := by
  have hcol : c = c' := by
    simpa [Nat.mul_add_mod_self_right, Nat.mod_eq_of_lt hc, Nat.mod_eq_of_lt hc'] using congrArg (· % n) h
  exact ⟨Nat.eq_of_mul_eq_mul_right (Nat.zero_lt_of_lt hc) (by omega), hcol⟩

/-- The separable product of a block with one non-zero coefficient has one term (42_itx2d_ops.md R154 c). -/
theorem separableProduct_single {r₀ c₀ : Nat} (hr₀ : r₀ < n) (hc₀ : c₀ < n)
    (hzero : ∀ e < n * n, e ≠ r₀ * n + c₀ → s.readCbuf e = 0) (y x : Nat) :
    separableProduct s n y x = basis s.rom n c₀ x * basis s.rom n r₀ y * s.readCbuf (r₀ * n + c₀) := by
  have hterm {r c : Nat} (hr : r < n) (hc : c < n) (hne : ¬(r = r₀ ∧ c = c₀)) :
      basis s.rom n r y * s.readCbuf (r * n + c) * basis s.rom n c x = 0 := by
    rw [hzero _ (inputIndex_lt hr hc) fun heq => hne (blockIndex_inj hc hc₀ heq), mul_zero, zero_mul]
  have hrow {r : Nat} (hr : r < n) (hne : r ≠ r₀) :
      ∑ c ∈ Finset.range n, basis s.rom n r y * s.readCbuf (r * n + c) * basis s.rom n c x = 0 :=
    Finset.sum_eq_zero fun c hc => hterm hr (Finset.mem_range.mp hc) fun h => hne h.1
  calc separableProduct s n y x
      = ∑ c ∈ Finset.range n, basis s.rom n r₀ y * s.readCbuf (r₀ * n + c) * basis s.rom n c x :=
        Finset.sum_eq_single_of_mem r₀ (Finset.mem_range.mpr hr₀) fun r hr hne => hrow (Finset.mem_range.mp hr) hne
    _ = basis s.rom n r₀ y * s.readCbuf (r₀ * n + c₀) * basis s.rom n c₀ x :=
        Finset.sum_eq_single_of_mem c₀ (Finset.mem_range.mpr hc₀) fun c hc hne =>
          hterm hr₀ (Finset.mem_range.mp hc) fun h => hne h.2
    _ = basis s.rom n c₀ x * basis s.rom n r₀ y * s.readCbuf (r₀ * n + c₀) := by ring

/-! ### The pair of commands that has the same effect -/

/-- The state a command starts from in the step that writes its word to CMD: the operation is taken, `rest` is still to come. -/
def State.started (i : Instr) (rest : List HostOp) (s : State) : State := { s.issue rest with cmd := encode i }

/-- The host's write of a command's own word runs that command (43_host_ops.md R159). -/
theorem step_encode {rest : List HostOp} (ho : s.ops = .writeReg .cmd (encode i) :: rest) (hf : s.faulted = false) :
    step s = exec i (s.started i rest) :=
  step_command ho hf (decode_encode i)

theorem withDone_withDone (w : Word) : withDone (withDone w) = withDone w :=
  withDone_congr fun _ hk => withDone_other w hk

theorem statusFault_withDone (w : Word) : statusFault (withDone w) = statusFault w := withDone_other w (by decide)

/-- Two commands that complete one after the other set DONE as one does. -/
theorem doneStatus_withDone_withDone (w : Word) : DoneStatus w (withDone (withDone w)) := by
  rw [withDone_withDone]
  exact doneStatus_withDone w

/-- A first fault after a command that has completed writes STATUS as if it had come at once: it clears DONE again. -/
theorem faultStatus_withFault_withDone (c : FaultCause) {w : Word} (hf : statusFault w = false) :
    FaultStatus c.code.toNat w (withFault c (withDone w)) := by
  rw [withFault_congr c ((statusFault_withDone w).trans hf) hf fun _ hk => withDone_other w (by omega)]
  exact faultStatus_withFault c w

/-! ### The statements -/

/-- Settles O26: every row's matrix is the basis of its size. -/
theorem twoDClosedForm : Obligations.TwoDClosedForm :=
  ⟨twoDResult (fun _ => rfl) fun _ _ => ⟨rfl, rfl, rfl, rfl, rfl⟩, twoDResult (fun _ => rfl) fun _ _ => ⟨rfl, rfl, rfl, rfl, rfl⟩,
    twoDResult (fun _ => rfl) fun _ _ => ⟨rfl, rfl, rfl, rfl, rfl⟩, twoDResult (fun _ => rfl) fun _ _ => ⟨rfl, rfl, rfl, rfl, rfl⟩,
    twoDResult (fun _ => rfl) fun _ _ => ⟨rfl, rfl, rfl, rfl, rfl⟩, twoDResult (fun _ => rfl) fun _ _ => ⟨rfl, rfl, rfl, rfl, rfl⟩⟩

/-- Settles O27: the residual is the horizontal stage of the separable product, whose 32-bit clamp does not act in range. -/
theorem twoDIsTheSeparableProduct : Obligations.TwoDIsTheSeparableProduct := by
  intro i s hv hh hline hr
  obtain ⟨t, he, hrbuf⟩ := exec_twoD_separable hv hh hline hr
  refine ⟨t, he, fun y hy x hx => ?_⟩
  change separableProduct s i.size y x ≤ _ → _ ≤ separableProduct s i.size y x → _
  intro hmax hmin
  rw [hrbuf y hy x hx, hout_eq, clamp32_of_mem hmin hmax]
  rfl

/-- Settles O31: one term of the separable product is left. -/
theorem singleCoefficientBlock : Obligations.SingleCoefficientBlock := by
  intro i s r₀ c₀ hv hh hline hr hr₀ hc₀ hzero
  obtain ⟨t, he, hrbuf⟩ := exec_twoD_separable hv hh hline hr
  refine ⟨t, he, fun y hy x hx => ?_⟩
  rw [hrbuf y hy x hx, separableProduct_single hr₀ hc₀ hzero]

/-- Settles O25: sums and differences of the taps, down the columns and then along the rows. -/
theorem twoDTwoTapResult : Obligations.TwoDTwoTapResult := by
  intro s shift line hline hr a b c d narrow
  obtain ⟨t, he, hdone, hframe, htbuf, hrbuf⟩ :=
    exec_twoD_outcome (i := .itx2 shift line) (n := 2) (shift := shift) rfl rfl rfl rfl hline hr
  have h₀ : t.readTbuf 0 = a + c := by simpa using htbuf 0 (by decide) 0 (by decide)
  have h₁ : t.readTbuf 1 = a - c := by simpa using htbuf 0 (by decide) 1 (by decide)
  have h₂ : t.readTbuf 2 = b + d := by simpa using htbuf 1 (by decide) 0 (by decide)
  have h₃ : t.readTbuf 3 = b - d := by simpa using htbuf 1 (by decide) 1 (by decide)
  have hrow (y : Nat) (hy : y < 2) :
      t.readRbuf (y * 2) = narrow (t.readTbuf y + t.readTbuf (2 + y)) ∧
        t.readRbuf (y * 2 + 1) = narrow (t.readTbuf y - t.readTbuf (2 + y)) :=
    ⟨by simpa using hrbuf y hy 0 (by decide), by simpa using hrbuf y hy 1 (by decide)⟩
  obtain ⟨r₀, r₁⟩ := hrow 0 (by decide)
  obtain ⟨r₂, r₃⟩ := hrow 1 (by decide)
  refine ⟨t, he, hdone, hframe, h₀, h₁, h₂, h₃, r₀.trans ?_, r₁.trans ?_, r₂.trans ?_, r₃.trans ?_⟩
  · rw [h₀, h₂, add_assoc (a + c)]
  · rw [h₀, h₂, sub_sub (a + c)]
  · rw [h₁, h₃, add_sub_assoc (a - c)]
  · rw [h₁, h₃, sub_add (a - c)]

/-- Settles O28: both sides run the same two passes on the same buffers, and the first word of the pair checks no range. -/
theorem twoDIsVerticalThenHorizontal : Obligations.TwoDIsVerticalThenHorizontal := by
  intro s i j k hiv hih hjh hkv hjn hkn hil hjl hkl hshift hf one pair
  have hn := size_mem i
  have hi : i.wellFormed = true := (wellFormed_square hiv hih).mpr hil
  have hj : j.wellFormed = true := (wellFormed_single (.inr hjh)).mpr (by omega)
  have hk : k.wellFormed = true := (wellFormed_single (.inl hkv)).mpr (by omega)
  have hkh : k.horizontal = true := (vertical_or_horizontal k).resolve_left (by simp [hkv])
  have hone : step one = exec i (one.started i []) := step_encode rfl hf
  have hfirst := (step_encode (s := pair) rfl hf).trans (exec_vertical_legal _ hj hjh)
  rw [hjn, hjl] at hfirst
  have hsecond := step_encode (s := (passV i.size i.size (pair.started j [.writeReg .cmd (encode k)])).complete) (i := k) rfl
    ((statusFault_withDone s.status).trans hf)
  rcases le_or_gt s.omin.toInt s.omax.toInt with hr | hr
  · have hpair := hsecond.trans (exec_horizontal_legal hk hkv hr)
    rw [hkn, hkl, hshift] at hpair
    exact ⟨_, _, _, hone.trans (exec_twoD_legal hi hiv hih hr), hfirst, hpair, rfl, rfl,
      fun _ => ⟨rfl, rfl, rfl, (withDone_withDone _).symm, rfl, rfl, rfl, doneStatus_withDone_withDone s.status⟩,
      fun h => absurd hr (not_le.mpr h)⟩
  · exact ⟨_, _, _, hone.trans (exec_of_badRange hi hih hr), hfirst, hsecond.trans (exec_of_badRange hk hkh hr), rfl, rfl,
      fun h => absurd h (not_le.mpr hr), fun _ => ⟨faultStatus_withFault .badRange s.status, rfl, rfl, rfl,
        doneStatus_withDone s.status, faultStatus_withFault_withDone .badRange hf, rfl, rfl, rfl,
        fun c hc y hy => passV_readTbuf _ hc hy⟩⟩

end Sys2Proof.Machine
end

section
/-! PROOFS. The host operations one by one: what a read returns, the one register or element a write changes, and the write of
a command word. A write ignored in the FAULT state is an update that puts the old value back. -/

namespace Sys2Proof.Machine

variable {s : State} {rest : List HostOp}

/-! ### Reads -/

theorem step_readReg {r : Reg} (ho : s.ops = .readReg r :: rest) :
    step s = .next { s.issue rest with reply := some (.register (s.readReg r)) } := step_issue ho

theorem step_readBuf {b : BufName} {i : BufIndex} (ho : s.ops = .readBuf b i :: rest) :
    step s = .next { s.issue rest with reply := some (.element (s.readBuf b i.toNat)) } := step_issue ho

/-! ### Writes -/

/-- A guarded update of one component is the update of that component by a guarded value. -/
theorem unlessFaulted_update {α : Type} (set : α → State) {old : α} (hold : set old = s) (new : α) :
    s.unlessFaulted (set new) = set (if s.faulted = true then old else new) := by
  cases hf : s.faulted with
  | true => rw [unlessFaulted_of_faulted _ hf, if_pos rfl, hold]
  | false => rw [unlessFaulted_of_not _ hf, if_neg Bool.false_ne_true]

theorem step_writeOmin {w : Word} (ho : s.ops = .writeReg .omin w :: rest) :
    step s = .next { s.issue rest with omin := if s.faulted = true then s.omin else w } :=
  (step_issue ho).trans (congrArg Host.Outcome.next (unlessFaulted_update (fun v => { s.issue rest with omin := v }) rfl w))

theorem step_writeOmax {w : Word} (ho : s.ops = .writeReg .omax w :: rest) :
    step s = .next { s.issue rest with omax := if s.faulted = true then s.omax else w } :=
  (step_issue ho).trans (congrArg Host.Outcome.next (unlessFaulted_update (fun v => { s.issue rest with omax := v }) rfl w))

theorem step_writeCbuf {i : BufIndex} {v : S16} (ho : s.ops = .writeCbuf i v :: rest) :
    step s = .next { s.issue rest with cbuf := if s.faulted = true then s.cbuf else Memory.write s.cbuf i.toNat v } :=
  (step_issue ho).trans (congrArg Host.Outcome.next (unlessFaulted_update (fun m => { s.issue rest with cbuf := m }) rfl _))

theorem step_writeTbuf {i : BufIndex} {v : S32} (ho : s.ops = .writeTbuf i v :: rest) :
    step s = .next { s.issue rest with tbuf := if s.faulted = true then s.tbuf else Memory.write s.tbuf i.toNat v } :=
  (step_issue ho).trans (congrArg Host.Outcome.next (unlessFaulted_update (fun m => { s.issue rest with tbuf := m }) rfl _))

theorem step_writeRbuf {i : BufIndex} {v : S16} (ho : s.ops = .writeRbuf i v :: rest) :
    step s = .next { s.issue rest with rbuf := if s.faulted = true then s.rbuf else Memory.write s.rbuf i.toNat v } :=
  (step_issue ho).trans (congrArg Host.Outcome.next (unlessFaulted_update (fun m => { s.issue rest with rbuf := m }) rfl _))

/-- An element after a guarded buffer write, as the signed integer the host reads (43_host_ops.md R155). -/
theorem toInt_read_guarded_write {n : Nat} (free : Nat → BitVec n) (m : Memory n) (faulted : Bool) (i : Nat) (v : BitVec n)
    (j : Nat) :
    (Memory.read free (if faulted = true then m else Memory.write m i v) j).toInt =
      if j = i ∧ faulted = false then v.toInt else (Memory.read free m j).toInt := by
  cases faulted with
  | true => simp
  | false => simp [read_write, apply_ite BitVec.toInt]

/-! ### The statements -/

/-- Settles O14: a write updates one buffer alone, and a read of that buffer after the guarded write finds the new value at the
index written and nowhere else. -/
theorem hostWritesOneElement : Obligations.HostWritesOneElement := by
  intro s rest i frame
  refine ⟨fun v ho => ⟨_, step_writeCbuf ho, ?_, ?_, fun _ => rfl, fun _ => rfl⟩,
    fun v ho => ⟨_, step_writeTbuf ho, ?_, ?_, fun _ => rfl, fun _ => rfl⟩,
    fun v ho => ⟨_, step_writeRbuf ho, ?_, ?_, fun _ => rfl, fun _ => rfl⟩⟩
  · exact ⟨rfl, rfl, rfl, rfl, rfl, rfl, rfl, rfl, rfl, rfl⟩
  · exact toInt_read_guarded_write (Config.freeCbuf s.draw) s.cbuf s.faulted i.toNat v
  · exact ⟨rfl, rfl, rfl, rfl, rfl, rfl, rfl, rfl, rfl, rfl⟩
  · exact toInt_read_guarded_write (Config.freeTbuf s.draw) s.tbuf s.faulted i.toNat v
  · exact ⟨rfl, rfl, rfl, rfl, rfl, rfl, rfl, rfl, rfl, rfl⟩
  · exact toInt_read_guarded_write (Config.freeRbuf s.draw) s.rbuf s.faulted i.toNat v

/-- Settles O6: the write of CMD executes the command its word decodes to, inside the step. -/
theorem stepRunsTheDecodedCommand : Obligations.StepRunsTheDecodedCommand := fun _ _ _ _ ho hf hd => step_command ho hf hd

/-- Settles O13: a read sets the reply alone, and it does not look at FAULT. -/
theorem hostReadsReturnCurrentValues : Obligations.HostReadsReturnCurrentValues := fun _ _ =>
  ⟨step_readReg, step_readReg, step_readReg, step_readReg, fun _ => ⟨step_readBuf, step_readBuf, step_readBuf⟩⟩

/-- Settles O15: the word is stored as it is, unless FAULT keeps the old one; a write of STATUS only takes the operation. -/
theorem hostWritesTheRange : Obligations.HostWritesTheRange := fun _ _ _ => ⟨step_writeOmin, step_writeOmax, step_issue⟩

end Sys2Proof.Machine
end

section
/-! PROOFS. The exceptions: the checks of a command in their order, how a step enters the FAULT state, and what the host can do
in it. -/

namespace Sys2Proof.Machine

variable {s t : State} {i : Instr} {w : Word} {rest : List HostOp}

/-! ### The checks of a command -/

/-- A word fails check 1 of 60_exceptions.md R161 when a reserved bit is set or it asks for no step. -/
theorem illegalCmd_check_iff (w : Word) :
    (w.toNat / 2 ^ 5 % 8 ≠ 0 ∨ w.toNat / 2 ^ 13 % 8 ≠ 0 ∨ w.toNat / 2 ^ 23 ≠ 0 ∨
        (w.toNat / 2 ^ 3 % 2 = 0 ∧ w.toNat / 2 ^ 4 % 2 = 0)) ↔
      ¬(reservedClear w = true ∧ (phField w = true ∨ pvField w = true)) := by
  rw [reservedClear_iff, phField_iff, pvField_iff]
  omega

/-- A word fails check 3 of 60_exceptions.md R161 when the LINE of its command is illegal for the command's row. -/
theorem badLine_check_iff (hi : i.HasFieldsOf w) :
    (w.toNat / 2 ^ 16 % 128 = 0 ∨ 64 < w.toNat / 2 ^ 16 % 128 ∨
        (w.toNat / 2 ^ 3 % 2 = 1 ∧ w.toNat / 2 ^ 4 % 2 = 1 ∧ w.toNat / 2 ^ 16 % 128 ≠ 2 ^ (w.toNat % 8))) ↔
      i.wellFormed = false := by
  rw [← Bool.not_eq_true, wellFormed_iff, size_eq_two_pow, hi.horizontal, hi.vertical, hi.log2n, hi.line, phField_iff,
    pvField_iff, log2nField_toNat, lineField_toNat]
  omega

/-- Checks 3 and 4 of a command and what each leaves unchanged; a command that passes both completes. -/
theorem exec_checks (i : Instr) (s : State) : ∃ t, exec i s = .next t ∧
    if i.wellFormed = false then FaultStatus 3 s.status t.status ∧ s.SameBut t 0 0
    else if i.horizontal = true ∧ s.omax.toInt < s.omin.toInt then FaultStatus 4 s.status t.status ∧ s.SameBut t 0 0
    else DoneStatus s.status t.status := by
  split_ifs with hw hr
  · exact exec_badLine_outcome s hw
  · exact exec_badRange_outcome (Bool.not_eq_false _ ▸ hw) hr.1 hr.2
  · exact exec_completes (Bool.not_eq_false _ ▸ hw) fun hh => not_lt.mp fun h => hr ⟨hh, h⟩

/-- The step that issues a word which does not decode: CMD takes the word, and fault entry is all that follows. -/
theorem step_rejected_outcome {e : DecodeError} (ho : s.ops = .writeReg .cmd w :: rest) (hf : s.faulted = false)
    (hd : decode w = .error e) : ∃ t, step s = .next t ∧ t.cmd = w ∧
      FaultStatus (decodeCause e).code.toNat s.status t.status ∧ State.SameBut { s.issue rest with cmd := w } t 0 0 :=
  ⟨_, (step_issue ho).trans (issueCommand_rejected (s := s.issue rest) hf hd), rfl,
    faultStatus_withFault (decodeCause e) s.status, raiseFault_sameBut (decodeCause e) _⟩

/-! ### The entry into the FAULT state -/

/-- A command that leaves FAULT set where it was clear has done fault entry alone: completion keeps FAULT. -/
theorem exec_enters_fault (h : exec i s = .next t) (hf : s.faulted = false) (ht : t.faulted = true) :
    ∃ c, t = s.raiseFault c := by
  have excluded (hdone : t.status = withDone s.status) : False := by
    have hfault : t.faulted = s.faulted := (congrArg statusFault hdone).trans (statusFault_withDone s.status)
    simp [hfault, hf] at ht
  obtain ⟨-, he⟩ | ⟨-, -, -, he⟩ | ⟨-, -, -, he⟩ | ⟨-, -, -, -, he⟩ | ⟨-, -, -, -, -, he⟩ := exec_cases i s <;>
    cases he.symm.trans h
  · exact ⟨.badLine, rfl⟩
  · exact ⟨.badRange, rfl⟩
  all_goals exact (excluded rfl).elim

/-- The only way into the FAULT state: the write of a word to CMD, and then fault entry alone (60_exceptions.md R163). -/
theorem step_enters_fault (h : step s = .next t) (hf : s.faulted = false) (ht : t.faulted = true) :
    ∃ c w rest, s.ops = .writeReg .cmd w :: rest ∧ t = State.raiseFault c { s.issue rest with cmd := w } := by
  have excluded (hkept : t.status = s.status) : False := by
    have hfault : t.faulted = s.faulted := congrArg statusFault hkept
    simp [hfault, hf] at ht
  obtain ⟨-, rfl⟩ | ⟨op, rest, ho, hop⟩ := step_cases h
  · exact (excluded rfl).elim
  obtain ⟨w, rfl, hw⟩ | ⟨-, rfl⟩ | hq := hostOp_cases hop
  · obtain ⟨-, rfl⟩ | ⟨-, e, -, rfl⟩ | ⟨-, i, -, he⟩ := issueCommand_cases hw
    · exact (excluded rfl).elim
    · exact ⟨_, w, rest, ho, rfl⟩
    · obtain ⟨c, rfl⟩ := exec_enters_fault he hf ht
      exact ⟨c, w, rest, ho, rfl⟩
  · simp [State.faulted, statusFault] at ht
  · exact (excluded hq.status).elim

/-! ### The FAULT state -/

/-- A host write in the FAULT state only takes the operation (60_exceptions.md R165). -/
theorem step_write_ignored (hf : s.faulted = true) (h : step s = .next ((s.issue rest).unlessFaulted t)) :
    step s = .next (s.issue rest) :=
  h.trans (congrArg Host.Outcome.next (unlessFaulted_of_faulted t hf))

/-! ### The statements -/

/-- Settles O8: the decoder makes checks 1 and 2, the command makes checks 3 and 4, and CMD holds the word in every case. -/
theorem commandChecksInOrder : Obligations.CommandChecksInOrder := by
  intro s w rest ho hf v L pv ph u
  cases decode_cases w with
  | reservedBit hd hr =>
    obtain ⟨t, hstep, hcmd, hfault⟩ := step_rejected_outcome ho hf hd
    exact ⟨t, hstep, hcmd, (if_pos ((illegalCmd_check_iff w).mpr fun h => by simp [hr] at h)).mpr hfault⟩
  | noPass hd hr hp =>
    obtain ⟨t, hstep, hcmd, hfault⟩ := step_rejected_outcome ho hf hd
    exact ⟨t, hstep, hcmd, (if_pos ((illegalCmd_check_iff w).mpr fun h => hp h.2)).mpr hfault⟩
  | badSize hd hr hp hm =>
    obtain ⟨t, hstep, hcmd, hfault⟩ := step_rejected_outcome ho hf hd
    refine ⟨t, hstep, hcmd, ?_⟩
    rw [if_neg ((illegalCmd_check_iff w).not_left.mpr ⟨hr, hp⟩), if_pos (log2nField_toNat w ▸ hm)]
    exact hfault
  | command hd hr hp hm hi =>
    obtain ⟨t, he, hchecks⟩ := exec_checks _ u
    refine ⟨t, (step_command ho hf hd).trans he, congrArg State.cmd (exec_writes he), ?_⟩
    rw [if_neg ((illegalCmd_check_iff w).not_left.mpr ⟨hr, hp⟩), if_neg (log2nField_toNat w ▸ hm)]
    simpa only [← badLine_check_iff hi, hi.horizontal, phField_iff] using hchecks

/-- Settles O9: a write is ignored, and a read does not look at FAULT. -/
theorem faultStateIgnoresWrites : Obligations.FaultStateIgnoresWrites := by
  intro s op rest ho hf hop
  cases op with
  | writeReg r w =>
    cases r with
    | cmd => exact (step_issue ho).trans (issueCommand_faulted (s := s.issue rest) w hf)
    | status => exact step_issue ho
    | omin => exact step_write_ignored hf (step_issue ho)
    | omax => exact step_write_ignored hf (step_issue ho)
  | readReg r => cases r <;> exact step_readReg ho
  | writeCbuf i v => exact step_write_ignored hf (step_issue ho)
  | writeTbuf i v => exact step_write_ignored hf (step_issue ho)
  | writeRbuf i v => exact step_write_ignored hf (step_issue ho)
  | readBuf b i => cases b <;> exact step_readBuf ho
  | reset => exact absurd rfl hop

/-- Settles O10: Reset clears STATUS, and every other step in the FAULT state keeps it. -/
theorem onlyResetLeavesTheFaultState : Obligations.OnlyResetLeavesTheFaultState := by
  intro s t hf h
  obtain ⟨ho, rfl⟩ | ⟨op, rest, ho, -⟩ := step_cases h
  · simp [hf, ho]
  by_cases hreset : op = .reset
  · subst hreset
    cases (step_reset ho).symm.trans h
    simp [ho]
  · cases (faultStateIgnoresWrites s op rest ho hf hreset).symm.trans h
    simp [hf, ho, hreset]

/-- Settles O18: the update of STATUS is fault entry's only one. -/
theorem faultEntryWritesOnlyStatus : Obligations.FaultEntryWritesOnlyStatus := fun s c =>
  ⟨faultStatus_withFault c s.status, rfl, rfl, rfl, rfl, rfl⟩

/-- Settles O19: a step that enters the FAULT state has written CMD and STATUS and nothing else of the engine. -/
theorem faultingCommandWritesNoBuffer : Obligations.FaultingCommandWritesNoBuffer := by
  intro s t h hf ht _
  obtain ⟨c, w, rest, -, rfl⟩ := step_enters_fault h hf ht
  exact ⟨rfl, rfl, rfl⟩

end Sys2Proof.Machine
end

section
/-! PROOFS. Reset and the hazards: the buffers after Reset, no step that hangs, and the rectangular block that a vertical and a
horizontal pass of different sizes leave. -/

namespace Sys2Proof.Machine

variable {s : State} {i j : Instr}

/-! ### The buffers after Reset -/

/-- No element is written at Reset, so each reads as its free value of the new draw (10_state.md R39). -/
@[simp] theorem resetFrom_readCbuf (s : State) (e : Nat) :
    s.resetFrom.readCbuf e = (Config.freeCbuf (s.draw + 1) e).toInt := rfl
@[simp] theorem resetFrom_readTbuf (s : State) (e : Nat) :
    s.resetFrom.readTbuf e = (Config.freeTbuf (s.draw + 1) e).toInt := rfl
@[simp] theorem resetFrom_readRbuf (s : State) (e : Nat) :
    s.resetFrom.readRbuf e = (Config.freeRbuf (s.draw + 1) e).toInt := rfl

/-! ### A rectangular block -/

/-- An `ITXV.H` with LINE = W completes and leaves in TBUF, column by column, the transformed columns of the H by W block in
CBUF, exactly: the vertical clamp does not act (20_memory.md R55, 40_kernel.md R100). -/
theorem exec_vertical_columns (s : State) {width : Nat} (hh : i.horizontal = false) (hline : i.line.toNat = width)
    (h₁ : 1 ≤ width) (h₆₄ : width ≤ 64) :
    ∃ t, exec i s = .next t ∧ s.SameBut t (i.size * width) 0 ∧ ∀ c < width, ∀ y < i.size,
      t.readTbuf (c * i.size + y) = ∑ r ∈ Finset.range i.size, basis s.rom i.size r y * s.readCbuf (r * width + c) := by
  subst hline
  obtain ⟨t, he, -, hframe, htbuf⟩ := exec_vertical_outcome s rfl rfl hh h₁ h₆₄
  refine ⟨t, he, hframe, fun c hc y hy => ?_⟩
  rw [Nat.mul_comm, htbuf c hc y hy, ← vout, vout_transform s.rom (size_le_64 i) (fun r => (element_bounds s _).1) hy,
    transform_eq_sum_basis _ _ _ hy]

/-- An `ITXH.W` with LINE = H completes and leaves in RBUF, row by row, the transformed rows of the H by W block whose columns
stand one after the other in TBUF (20_memory.md R55, 41_pass_ops.md R133). -/
theorem exec_horizontal_rows {height : Nat} (hv : j.vertical = false) (hline : j.line.toNat = height) (h₁ : 1 ≤ height)
    (h₆₄ : height ≤ 64) (hr : s.omin.toInt ≤ s.omax.toInt) :
    ∃ t, exec j s = .next t ∧ ∀ y < height, ∀ x < j.size, t.readRbuf (y * j.size + x) =
      hout (∑ c ∈ Finset.range j.size, basis s.rom j.size c x * s.readTbuf (c * height + y))
        j.shift.toNat s.omin.toInt s.omax.toInt := by
  subst hline
  obtain ⟨t, he, -, -, hrbuf⟩ := exec_horizontal_outcome rfl rfl rfl hv h₁ h₆₄ hr
  refine ⟨t, he, fun y hy x hx => ?_⟩
  rw [Nat.mul_comm, hrbuf y hy x hx, transform_eq_sum_basis _ _ _ hx]

/-! ### The statements -/

/-- Settles O29: the columns the vertical pass has left in TBUF are what the horizontal pass reads its rows from, with the
output range and the ROM as before. -/
theorem rectangularBlockFromTwoPasses : Obligations.RectangularBlockFromTwoPasses := by
  intro s i j hi hj hiline hjline hr
  have hheight := size_mem i
  have hwidth := size_mem j
  obtain ⟨t, ht, ⟨-, hmin, hmax, hrom, -⟩, hcolumns⟩ := exec_vertical_columns s hi hiline (by omega) (by omega)
  obtain ⟨u, hu, hrows⟩ := exec_horizontal_rows (s := t) hj hjline (by omega) (by omega) (by rwa [hmin, hmax])
  refine ⟨t, u, ht, hu, fun y hy x hx => ?_⟩
  rw [hrows y hy x hx, hmin, hmax, hrom, Finset.sum_congr rfl fun c hc => by rw [hcolumns c (Finset.mem_range.mp hc) y hy]]

/-- Settles O16: the idle engine stays as it is, and every host operation answers a next state, a command included. -/
theorem stepAlwaysCompletes : Obligations.StepAlwaysCompletes := step_next

/-- Settles O12: Reset counts the draw on and leaves no element written. -/
theorem buffersRedrawnAtReset : Obligations.BuffersRedrawnAtReset := fun s rest ho =>
  ⟨(s.issue rest).resetFrom, step_reset ho, Nat.succ_ne_self s.draw, fun e =>
    ⟨resetFrom_readCbuf _ e, resetFrom_readTbuf _ e, resetFrom_readRbuf _ e⟩⟩

end Sys2Proof.Machine
end
